-- ==== Sys2Proof/Word.lean ====
section
/-! DEFINITION. The bit-vector types the spec fixes widths for (spec/00_scope.md R7), and the type of a text. -/

namespace Sys2Proof

/-- A byte of the byte source: 8 bits, bit 0 the least significant (spec/20_memory.md R38, spec/00_scope.md R8). -/
abbrev Byte := BitVec 8

/-- A 16-bit field: displacement, address or immediate (spec/10_state.md R20). -/
abbrev Word := BitVec 16

/-- A register code, three bits: REG, RM, or the low bits of the opcode byte (spec/30_encoding.md R52, R53). -/
abbrev RegCode := BitVec 3

/-- The MOD field, two bits (spec/30_encoding.md R53). -/
abbrev ModCode := BitVec 2

/-- A segment-register code, two bits (spec/10_state.md R30). -/
abbrev SegCode := BitVec 2

/-- A text: a finite sequence of characters (spec/00_scope.md R10). -/
abbrev Text := List Char

end Sys2Proof
end

