-- ==== Sys2Proof/Record.lean ====
section
/-! DEFINITION. The data types of the block: register identities, operand fields as they are encoded, layout
flags, operand descriptors, the instruction record, the error kinds. -/

namespace Sys2Proof

/-- The identities of the byte and word rows of the register table (spec/10_state.md R27, R28). -/
inductive RegName where
  | al | cl | dl | bl | ah | ch | dh | bh
  | ax | cx | dx | bx | sp | bp | si | di
deriving DecidableEq, Repr

/-- The identities of the effective-address-base row (spec/10_state.md R29). -/
inductive BaseName where
  | bxSi | bxDi | bpSi | bpDi | si | di | bp | bx
deriving DecidableEq, Repr

/-- The segment registers (spec/10_state.md R30). -/
inductive SegName where
  | es | cs | ss | ds
deriving DecidableEq, Repr

/-- The register-or-memory operand as the bytes after the opcode give it: MOD, RM and the displacement or
address bytes that those two call for (spec/30_encoding.md R63, R64; the table of R98). -/
inductive Rm where
  /-- MOD = 3: RM is a register code. -/
  | reg (code : RegCode)
  /-- MOD = 0 with RM other than 6: a base and no displacement byte. -/
  | mem (code : RegCode)
  /-- MOD = 0 with RM = 6: a direct address, two bytes. -/
  | direct (address : Word)
  /-- MOD = 1: a base and one displacement byte. -/
  | mem8 (code : RegCode) (disp : Byte)
  /-- MOD = 2: a base and two displacement bytes. -/
  | mem16 (code : RegCode) (disp : Word)
deriving DecidableEq, Repr

/-- A field whose size follows the instruction's width: one byte or two (spec/30_encoding.md R65, R66). -/
inductive Sized where
  | byte (value : Byte)
  | word (value : Word)
deriving DecidableEq, Repr

/-- The operation code of a record (spec/10_state.md R15). -/
inductive Op where
  | unknown | move | push | pop
deriving DecidableEq, Repr

/-- The nine layout flags, set by the classifier only (spec/10_state.md R16). -/
structure LayoutFlags where
  d : Bool := false
  wlow : Bool := false
  w3 : Bool := false
  modrm : Bool := false
  regmodrm : Bool := false
  regop : Bool := false
  regdirect : Bool := false
  imm : Bool := false
  acc : Bool := false
deriving DecidableEq, Repr

/-- An operand descriptor (spec/10_state.md R21). A displacement is signed: `disp.toInt` is its value. -/
inductive Operand where
  | register (id : RegName)
  | effectiveAddress (base : BaseName) (disp : Word)
  | directAddress (address : Word)
  | accumulatorAddress (address : Word)
deriving DecidableEq, Repr

/-- The instruction record I (spec/10_state.md R14); the default of each field is its zero value
(spec/70_reset_and_hazards.md R140). `disp` holds the two's-complement pattern of the signed displacement:
`disp.toInt` is I.disp, and `disp.toNat` is I.disp mod 65536, the direct address (R20). `none` in a slot is
"not yet resolved". -/
structure Record where
  op : Op := .unknown
  flags : LayoutFlags := {}
  rev : Bool := false
  word : Bool := false
  ea : Bool := false
  direct : Bool := false
  mod : ModCode := 0
  reg : RegCode := 0
  rm : RegCode := 0
  disp : Word := 0
  addr : Word := 0
  data : Word := 0
  dst : Option Operand := none
  src : Option Operand := none
  len : Nat := 0
deriving DecidableEq, Repr

/-- The record at the start of every decode: all fields zero (spec/70_reset_and_hazards.md R140). -/
def Record.zero : Record := {}

/-- The error kinds (spec/60_exceptions.md R122). -/
inductive ErrorKind where
  /-- The opcode byte matches no row (R123). -/
  | unknown
  /-- The opcode byte is a segment-register move (R124). -/
  | unimplemented
  /-- The stream ended inside an instruction (R125). -/
  | missingByte
deriving DecidableEq, Repr

end Sys2Proof
end

