-- ==== Sys2Proof/Syntax.lean ====
section
/-! DEFINITION. The instructions the classifier recognises: one constructor for each row of spec/opcode_table.json. -/

namespace Sys2Proof

/-- A recognised instruction, with every field its encoding carries (spec/30_encoding.md R51 to R53, R55). -/
inductive Instr where
  /-- MOV_RM_R, row 1: direction bit, width bit, REG, RM (spec/41_move.md R99). -/
  | movRmR (d w : Bool) (reg : RegCode) (rm : Rm)
  /-- MOV_RM_IMM, row 2: the unchecked REG field, RM, immediate (R100). -/
  | movRmImm (reg : RegCode) (rm : Rm) (data : Sized)
  /-- MOV_R_IMM, row 3: register code, immediate (R101). -/
  | movRImm (reg : RegCode) (data : Sized)
  /-- MOV_ACC_MEM, row 4: absolute address, one byte at byte width (R102). -/
  | movAccMem (addr : Sized)
  /-- MOV_MEM_ACC, row 5: absolute address, one byte at byte width (R103). -/
  | movMemAcc (addr : Sized)
  /-- MOV_SR_RM, row 6, byte 0x8E: recognised and refused; nothing after the opcode byte is read (R104). -/
  | movSrRm
  /-- MOV_RM_SR, row 6, byte 0x8C: recognised and refused (R104). -/
  | movRmSr
  /-- PUSH_RM, row 7: the unchecked REG field, RM (spec/42_push_pop.md R106). -/
  | pushRm (reg : RegCode) (rm : Rm)
  /-- PUSH_R, row 8: register code (R107). -/
  | pushR (reg : RegCode)
  /-- PUSH_SR, row 9: bits 5 to 3 of the opcode byte, the low two of them the segment code (R108). -/
  | pushSr (code : RegCode)
  /-- POP_RM, row 10: the unchecked REG field, RM (R109). -/
  | popRm (reg : RegCode) (rm : Rm)
  /-- POP_R, row 11: register code (R110). -/
  | popR (reg : RegCode)
  /-- POP_SR, row 12: bits 5 to 3 of the opcode byte (R111). -/
  | popSr (code : RegCode)
deriving DecidableEq, Repr

end Sys2Proof
end

