-- ==== Sys2Proof/WellFormed.lean ====
section
/-! DEFINITION. Which terms of Instr are the reading of some bytes. -/

namespace Sys2Proof

/-- MOD = 0 with RM = 6 is the direct address, never a base (spec/30_encoding.md R63, spec/41_move.md R99). Every
other term of Rm is encodable. -/
def Rm.wellFormed : Rm → Bool
  | .mem code => code != 6#3
  | .reg _ => true
  | .direct _ => true
  | .mem8 _ _ => true
  | .mem16 _ _ => true

/-- The checks on an instruction, one arm for each constructor. A field whose size follows the width carries the
width itself, so the only check is the one on RM. -/
def Instr.wellFormed : Instr → Bool
  | .movRmR _ _ _ rm => rm.wellFormed
  | .movRmImm _ rm _ => rm.wellFormed
  | .movRImm _ _ => true
  | .movAccMem _ => true
  | .movMemAcc _ => true
  | .movSrRm => true
  | .movRmSr => true
  | .pushRm _ rm => rm.wellFormed
  | .pushR _ => true
  | .pushSr _ => true
  | .popRm _ rm => rm.wellFormed
  | .popR _ => true
  | .popSr _ => true

end Sys2Proof
end

