-- ==== Sys2Proof/Decode.lean ====
section
/-! DEFINITION. The opcode classifier, the decoder from bytes to Instr, and the encoder, all written from the
tables of spec/30_encoding.md. -/

namespace Sys2Proof

/-! ## Byte order and widening (R39, R93) -/

/-- `le16(lo, hi) = hi * 256 + lo`: the byte that comes first in the stream is the low-order byte (R39). -/
def le16 (lo hi : Byte) : Word := hi ++ lo

/-- The low-order byte of a 16-bit field, first in the stream. -/
def lowByte (v : Word) : Byte := v.extractLsb' 0 8

/-- The high-order byte of a 16-bit field, second in the stream. -/
def highByte (v : Word) : Byte := v.extractLsb' 8 8

/-- `sext_16`: the 8-bit displacement as a signed 16-bit value (R64, R93). -/
def sext16 (d : Byte) : Word := d.signExtend 16

/-- `zext_16`: a one-byte address or immediate in its 16-bit field (R65, R66). -/
def zext16 (v : Byte) : Word := v.zeroExtend 16

/-! ## Fields of the opcode byte and of the ModRM byte (R52, R53) -/

/-- The direction bit d, bit 1 of the opcode byte (R52). -/
def dBit (b0 : Byte) : Bool := b0.getLsbD 1

/-- The width bit in the low position, bit 0 of the opcode byte (R52). -/
def wLowBit (b0 : Byte) : Bool := b0.getLsbD 0

/-- The width bit in bit 3 of the opcode byte (R52). -/
def w3Bit (b0 : Byte) : Bool := b0.getLsbD 3

/-- The register code in bits 2 to 0 of the opcode byte (R52, R61). -/
def opcodeReg (b0 : Byte) : RegCode := b0.extractLsb' 0 3

/-- The segment-register field in bits 5 to 3 of the opcode byte (R52, R62). -/
def opcodeSeg (b0 : Byte) : RegCode := b0.extractLsb' 3 3

/-- MOD, bits 7 to 6 of the ModRM byte (R53). -/
def modField (m : Byte) : ModCode := m.extractLsb' 6 2

/-- REG, bits 5 to 3 of the ModRM byte (R53). -/
def regField (m : Byte) : RegCode := m.extractLsb' 3 3

/-- RM, bits 2 to 0 of the ModRM byte (R53). -/
def rmField (m : Byte) : RegCode := m.extractLsb' 0 3

/-! ## The opcode classifier (R54, R55) -/

/-- The row of the opcode table that a byte matches, by the constructor that stands for it. -/
inductive Form where
  | movRmR | movRmImm | movRImm | movAccMem | movMemAcc | movSrRm | movRmSr
  | pushRm | pushR | pushSr | popRm | popR | popSr
deriving DecidableEq, Repr

/-- One tuple of the classifier table: mask, expected value, operation (`none` where the row fails as
Unimplemented), flag set (R54). -/
structure ClassRow where
  form : Form
  mask : Byte
  value : Byte
  op : Option Op
  flags : LayoutFlags
deriving DecidableEq, Repr

/-- Rows 1 to 5: the move family (R55). -/
def moveRows : List ClassRow := [
  ⟨.movRmR, 0xFC, 0x88, some .move, { d := true, wlow := true, modrm := true }⟩,
  ⟨.movRmImm, 0xFE, 0xC6, some .move, { d := true, wlow := true, modrm := true, imm := true }⟩,
  ⟨.movRImm, 0xF0, 0xB0, some .move, { w3 := true, regop := true, imm := true }⟩,
  ⟨.movAccMem, 0xFE, 0xA0, some .move, { d := true, wlow := true, acc := true }⟩,
  ⟨.movMemAcc, 0xFE, 0xA2, some .move, { d := true, wlow := true, acc := true }⟩]

/-- Row 6: the segment-register moves, one entry for each byte value (R55, R58). -/
def segmentMoveRows : List ClassRow := [
  ⟨.movSrRm, 0xFF, 0x8E, none, {}⟩,
  ⟨.movRmSr, 0xFF, 0x8C, none, {}⟩]

/-- Rows 7 to 12: push and pop (R55). -/
def pushPopRows : List ClassRow := [
  ⟨.pushRm, 0xFF, 0xFF, some .push, { modrm := true }⟩,
  ⟨.pushR, 0xF8, 0x50, some .push, { regop := true }⟩,
  ⟨.pushSr, 0xC7, 0x06, some .push, { regdirect := true }⟩,
  ⟨.popRm, 0xFF, 0x8F, some .pop, { modrm := true }⟩,
  ⟨.popR, 0xF8, 0x58, some .pop, { regop := true }⟩,
  ⟨.popSr, 0xC7, 0x07, some .pop, { regdirect := true }⟩]

/-- The whole table, in the source's order (R55). Row 13 is the absence of a match (R57). -/
def classTable : List ClassRow := moveRows ++ segmentMoveRows ++ pushPopRows

/-- Row k matches b0 when (b0 AND mask) = value (R54). -/
def ClassRow.accepts (r : ClassRow) (b0 : Byte) : Bool := b0 &&& r.mask == r.value

/-- Ordered, first match wins; a pure function of the byte (R54). -/
def classify (b0 : Byte) : Option ClassRow := classTable.find? fun r => r.accepts b0

/-! ## Reading the fields (R63 to R66) -/

/-- The next byte, or nothing where the bytes end. -/
def takeByte : List Byte → Option (Byte × List Byte)
  | [] => none
  | b :: rest => some (b, rest)

/-- Two bytes, little-endian (R39). -/
def takeWord : List Byte → Option (Word × List Byte)
  | lo :: hi :: rest => some (le16 lo hi, rest)
  | _ => none

/-- One byte at byte width, two at word width (R65, R66). -/
def takeSized (w : Bool) (bs : List Byte) : Option (Sized × List Byte) :=
  if w then (takeWord bs).map fun (v, rest) => (.word v, rest)
  else (takeByte bs).map fun (v, rest) => (.byte v, rest)

/-- The displacement or direct address that MOD and RM call for (R63, R64). -/
def takeRm (mod : ModCode) (rm : RegCode) (bs : List Byte) : Option (Rm × List Byte) :=
  if mod = 0#2 ∧ rm = 6#3 then (takeWord bs).map fun (a, rest) => (.direct a, rest)
  else if mod = 0#2 then some (.mem rm, bs)
  else if mod = 1#2 then (takeByte bs).map fun (d, rest) => (.mem8 rm d, rest)
  else if mod = 2#2 then (takeWord bs).map fun (d, rest) => (.mem16 rm d, rest)
  else some (.reg rm, bs)

/-- The ModRM byte and what it calls for: the REG code, then RM (R63, R64). -/
def takeModRm (bs : List Byte) : Option ((RegCode × Rm) × List Byte) :=
  match takeByte bs with
  | none => none
  | some (m, rest) =>
    (takeRm (modField m) (rmField m) rest).map fun (rm, rest') => ((regField m, rm), rest')

/-- The fields of one form, in the order of R51, after the opcode byte `b0`; nothing where the bytes end first. -/
def takeForm (f : Form) (b0 : Byte) (bs : List Byte) : Option (Instr × List Byte) :=
  match f with
  | .movRmR => (takeModRm bs).map fun (m, rest) => (.movRmR (dBit b0) (wLowBit b0) m.1 m.2, rest)
  | .movRmImm =>
    match takeModRm bs with
    | none => none
    | some (m, rest) => (takeSized (wLowBit b0) rest).map fun (v, rest') => (.movRmImm m.1 m.2 v, rest')
  | .movRImm => (takeSized (w3Bit b0) bs).map fun (v, rest) => (.movRImm (opcodeReg b0) v, rest)
  | .movAccMem => (takeSized (wLowBit b0) bs).map fun (a, rest) => (.movAccMem a, rest)
  | .movMemAcc => (takeSized (wLowBit b0) bs).map fun (a, rest) => (.movMemAcc a, rest)
  | .movSrRm => some (.movSrRm, bs)
  | .movRmSr => some (.movRmSr, bs)
  | .pushRm => (takeModRm bs).map fun (m, rest) => (.pushRm m.1 m.2, rest)
  | .pushR => some (.pushR (opcodeReg b0), bs)
  | .pushSr => some (.pushSr (opcodeSeg b0), bs)
  | .popRm => (takeModRm bs).map fun (m, rest) => (.popRm m.1 m.2, rest)
  | .popR => some (.popR (opcodeReg b0), bs)
  | .popSr => some (.popSr (opcodeSeg b0), bs)

/-- What the decoder reads at an instruction boundary. -/
inductive Decoded where
  /-- No byte at the opcode position: the clean end (spec/43_translation_driver.md R116). -/
  | endOfStream
  /-- An error kind and the number of bytes delivered before it was found (spec/60_exceptions.md R128, R131). -/
  | error (kind : ErrorKind) (consumed : Nat)
  /-- A recognised instruction and the bytes after it. -/
  | instr (i : Instr) (rest : List Byte)
deriving DecidableEq, Repr

/-- The decoder, total on any bytes: the clean end, Unknown, MissingByte (every byte then delivered), or an
instruction (R57, R67, R74). The segment-register moves are recognised here and fail in their meaning (R58). -/
def decode : List Byte → Decoded
  | [] => .endOfStream
  | b0 :: bs =>
    match classify b0 with
    | none => .error .unknown 1
    | some row =>
      match takeForm row.form b0 bs with
      | some (i, rest) => .instr i rest
      | none => .error .missingByte (bs.length + 1)

/-! ## The encoder (R51 to R55) -/

/-- MOD of an RM operand (R63). -/
def Rm.mod : Rm → ModCode
  | .mem _ => 0#2
  | .direct _ => 0#2
  | .mem8 _ _ => 1#2
  | .mem16 _ _ => 2#2
  | .reg _ => 3#2

/-- The RM code of an RM operand; the direct address is code 6 (R63). -/
def Rm.code : Rm → RegCode
  | .mem c => c
  | .direct _ => 6#3
  | .mem8 c _ => c
  | .mem16 c _ => c
  | .reg c => c

/-- A 16-bit field as its two bytes in stream order (R39). -/
def wordBytes (v : Word) : List Byte := [lowByte v, highByte v]

/-- The bytes after the ModRM byte (R64). -/
def Rm.extraBytes : Rm → List Byte
  | .mem _ => []
  | .direct a => wordBytes a
  | .mem8 _ d => [d]
  | .mem16 _ d => wordBytes d
  | .reg _ => []

/-- The stored displacement: sign-extended from one byte, two's complement from two, the direct address in the
same field, else 0 (R64). -/
def Rm.disp : Rm → Word
  | .mem _ => 0#16
  | .direct a => a
  | .mem8 _ d => sext16 d
  | .mem16 _ d => d
  | .reg _ => 0#16

/-- The width a sized field belongs to: word or not. -/
def Sized.isWord : Sized → Bool
  | .byte _ => false
  | .word _ => true

/-- The bytes of a sized field in stream order (R65, R66). -/
def Sized.bytes : Sized → List Byte
  | .byte v => [v]
  | .word v => wordBytes v

/-- The 16-bit value of a sized field (R65, R66). -/
def Sized.value : Sized → Word
  | .byte v => zext16 v
  | .word v => v

/-- One bit of an opcode byte. -/
def bit (b : Bool) : BitVec 1 := BitVec.ofBool b

/-- The ModRM byte: MOD, REG, RM from the most significant bit down (R53). -/
def modRmByte (mod : ModCode) (reg rm : RegCode) : Byte := mod ++ reg ++ rm

/-- The ModRM byte of an operand and the bytes it calls for. -/
def modRmBytes (reg : RegCode) (rm : Rm) : List Byte := modRmByte rm.mod reg rm.code :: rm.extraBytes

/-- The bytes of an instruction, from the patterns of R55 and the field order of R51. -/
def encode : Instr → List Byte
  | .movRmR d w reg rm => (0b100010#6 ++ bit d ++ bit w) :: modRmBytes reg rm
  | .movRmImm reg rm data => (0b1100011#7 ++ bit data.isWord) :: (modRmBytes reg rm ++ data.bytes)
  | .movRImm reg data => (0b1011#4 ++ bit data.isWord ++ reg) :: data.bytes
  | .movAccMem addr => (0b1010000#7 ++ bit addr.isWord) :: addr.bytes
  | .movMemAcc addr => (0b1010001#7 ++ bit addr.isWord) :: addr.bytes
  | .movSrRm => [0x8E#8]
  | .movRmSr => [0x8C#8]
  | .pushRm reg rm => 0xFF#8 :: modRmBytes reg rm
  | .pushR reg => [0b01010#5 ++ reg]
  | .pushSr code => [0b00#2 ++ code ++ 0b110#3]
  | .popRm reg rm => 0x8F#8 :: modRmBytes reg rm
  | .popR reg => [0b01011#5 ++ reg]
  | .popSr code => [0b00#2 ++ code ++ 0b111#3]

/-! ## An instruction given as one number (the host's numbering) -/

/-- The longest instruction: 6 bytes (R69). -/
def maxLength : Nat := 6

/-- The bytes of an instruction whose bits are `w`, bit 0 the least significant bit of the first byte, with every
bit from `nbits` up equal to 0, laid out in stream order. -/
def tableBytes (nbits w : Nat) : List Byte :=
  (List.range maxLength).map fun k => BitVec.ofNat 8 (w % 2 ^ nbits / 256 ^ k)

/-- The instruction the decoder reads from those bytes. -/
def decodeTableWord (nbits w : Nat) : Option Instr :=
  match decode (tableBytes nbits w) with
  | .instr i _ => some i
  | .endOfStream => none
  | .error _ _ => none

end Sys2Proof
end

