-- ==== Sys2Proof/Machine/Flags.lean ====
section
/-! DEFINITION. The decoded flags of an instruction record, and the record fields that the opcode byte and the
ModRM byte set (spec/30_encoding.md R60 to R64). -/

namespace Sys2Proof.Machine

/-- `I.REV <- F.D and b0[1] = 1` (R60). -/
def revFlag (f : LayoutFlags) (b0 : Byte) : Bool := f.d && dBit b0

/-- `I.WORD <- (F.WLOW and b0[0] = 1) or (F.W3 and b0[3] = 1)` (R60). -/
def wordFlag (f : LayoutFlags) (b0 : Byte) : Bool := f.wlow && wLowBit b0 || f.w3 && w3Bit b0

/-- `I.EA <- (I.mod < 3)` (R63). It stays true for the direct address, which is tested first (R17). -/
def eaFlag (mod : ModCode) : Bool := decide (mod < 3#2)

/-- `I.DIRECT <- (I.mod = 0 and I.rm = 6)` (R63). -/
def directFlag (mod : ModCode) (rm : RegCode) : Bool := mod == 0#2 && rm == 6#3

/-- The record's MOD, REG, RM, EA and DIRECT from the three codes of the ModRM byte (R63). -/
def withCodes (r : Record) (mod : ModCode) (reg rm : RegCode) : Record :=
  { r with mod := mod, reg := reg, rm := rm, ea := eaFlag mod, direct := directFlag mod rm }

/-- The record with everything an RM operand and its REG code set: codes, flags and displacement (R63, R64). -/
def withModRm (r : Record) (reg : RegCode) (rm : Rm) : Record :=
  { withCodes r rm.mod reg rm.code with disp := rm.disp }

end Sys2Proof.Machine
end

