-- ==== Sys2Proof/Machine/Operands.lean ====
section
/-! DEFINITION. The Operand Tables (spec/10_state.md R26 to R31), the Operand Resolver and the text of one operand
(spec/40_operand_resolution_and_printing.md R77 to R85). -/

namespace Sys2Proof.Machine

/-! ## The tables: constants, not state (R31) -/

/-- The byte row of the register table (R27). -/
def reg8 (c : RegCode) : RegName :=
  match c.toFin with
  | 0 => .al | 1 => .cl | 2 => .dl | 3 => .bl | 4 => .ah | 5 => .ch | 6 => .dh | 7 => .bh

/-- The word row of the register table (R28). -/
def reg16 (c : RegCode) : RegName :=
  match c.toFin with
  | 0 => .ax | 1 => .cx | 2 => .dx | 3 => .bx | 4 => .sp | 5 => .bp | 6 => .si | 7 => .di

/-- The effective-address-base row of the register table (R29). -/
def eaBase (c : RegCode) : BaseName :=
  match c.toFin with
  | 0 => .bxSi | 1 => .bxDi | 2 => .bpSi | 3 => .bpDi | 4 => .si | 5 => .di | 6 => .bp | 7 => .bx

/-- The segment table, which no rule reads (R30, R80). -/
def seg (c : SegCode) : SegName :=
  match c.toFin with
  | 0 => .es | 1 => .cs | 2 => .ss | 3 => .ds

/-- The 2-bit segment code of a REGDIRECT record, `I.reg[1:0]` (spec/30_encoding.md R62). -/
def segmentCode (r : Record) : SegCode := r.reg.extractLsb' 0 2

/-- `REGW[c]`: the word row at word width, else the byte row (R78). -/
def regW (word : Bool) (c : RegCode) : RegName := if word then reg16 c else reg8 c

/-! ## The resolver (R79) -/

/-- The structural slot `I.dst`, the register-or-memory side (R79); DIRECT is tested first (R17). -/
def dstSlot (r : Record) : Operand :=
  if r.direct then .directAddress r.disp
  else if r.ea then .effectiveAddress (eaBase r.rm) r.disp
  else .register (regW r.word r.rm)

/-- The structural slot `I.src`, the register side, or the accumulator address (R79). -/
def srcSlot (r : Record) : Operand :=
  if r.flags.acc then .accumulatorAddress r.addr else .register (regW r.word r.reg)

/-- The resolver fills the two slots and changes nothing else; it has no failure case (R77, R18). -/
def resolve (r : Record) : Record := { r with dst := some (dstSlot r), src := some (srcSlot r) }

/-! ## Texts -/

/-- The canonical lowercase name of a register (R27, R28, R81). -/
def regText : RegName → Text
  | .al => ['a', 'l'] | .cl => ['c', 'l'] | .dl => ['d', 'l'] | .bl => ['b', 'l']
  | .ah => ['a', 'h'] | .ch => ['c', 'h'] | .dh => ['d', 'h'] | .bh => ['b', 'h']
  | .ax => ['a', 'x'] | .cx => ['c', 'x'] | .dx => ['d', 'x'] | .bx => ['b', 'x']
  | .sp => ['s', 'p'] | .bp => ['b', 'p'] | .si => ['s', 'i'] | .di => ['d', 'i']

/-- The text of a base: a pair is joined by `+` with no space (R29). -/
def baseText : BaseName → Text
  | .bxSi => ['b', 'x', '+', 's', 'i']
  | .bxDi => ['b', 'x', '+', 'd', 'i']
  | .bpSi => ['b', 'p', '+', 's', 'i']
  | .bpDi => ['b', 'p', '+', 'd', 'i']
  | .si => ['s', 'i']
  | .di => ['d', 'i']
  | .bp => ['b', 'p']
  | .bx => ['b', 'x']

/-- The name of a segment register (R30); no line prints one. -/
def segText : SegName → Text
  | .es => ['e', 's'] | .cs => ['c', 's'] | .ss => ['s', 's'] | .ds => ['d', 's']

/-- A decimal digit, 0 to 9. -/
def digitChar (n : Nat) : Char := Char.ofNat (48 + n % 10)

/-- The decimal digits of `n` before the text `acc`, most significant first; `fuel` above `n` is enough. -/
def decFuel : Nat → Nat → Text → Text
  | 0, _, acc => acc
  | fuel + 1, n, acc =>
    let acc' := digitChar n :: acc
    if n / 10 = 0 then acc' else decFuel fuel (n / 10) acc'

/-- `dec(n)`: the decimal numeral, no leading zeros, no sign, `"0"` for zero (spec/00_scope.md R10). -/
def dec (n : Nat) : Text := decFuel (n + 1) n []

/-- `sdec(n)` for a non-zero integer: an explicit sign and the magnitude (R10). -/
def sdec (n : Int) : Text := if 0 < n then '+' :: dec n.natAbs else '-' :: dec n.natAbs

/-- A text between square brackets. -/
def bracketed (t : Text) : Text := ['['] ++ t ++ [']']

/-- The text of one operand (R81 to R85). -/
def operandText : Operand → Text
  | .register id => regText id
  | .effectiveAddress base disp =>
    if disp = 0#16 then bracketed (baseText base) else bracketed (baseText base ++ [' '] ++ sdec disp.toInt)
  | .directAddress a => bracketed (dec a.toNat)
  | .accumulatorAddress a => bracketed (dec a.toNat)

end Sys2Proof.Machine
end

