-- ==== Sys2Proof/Machine/Printer.lean ====
section
/-! DEFINITION. The Instruction Printer (spec/40_operand_resolution_and_printing.md R86 to R95) and the header
(spec/43_translation_driver.md R115). -/

namespace Sys2Proof.Machine

/-- The nine characters of the header: `bits 16`, newline, newline (R115). -/
def header : Text := ['b', 'i', 't', 's', ' ', '1', '6', '\n', '\n']

/-- The mnemonic of an operation; a record that reaches the printer is never Unknown, which has none (R91). -/
def mnemonic : Op → Option Text
  | .move => some ['m', 'o', 'v']
  | .push => some ['p', 'u', 's', 'h']
  | .pop => some ['p', 'o', 'p']
  | .unknown => none

/-- `join(sep, L)` (spec/00_scope.md R10). -/
def join (sep : Text) : List Text → Text
  | [] => []
  | [t] => t
  | t :: u :: rest => t ++ sep ++ join sep (u :: rest)

/-- `nonempty(L)`: the empty texts removed, order kept (R10). -/
def nonempty (ts : List Text) : List Text := ts.filter fun t => !t.isEmpty

/-- The size keyword (R88). -/
def sizeKeyword (word : Bool) : Text := if word then ['w', 'o', 'r', 'd'] else ['b', 'y', 't', 'e']

/-- The immediate field: the keyword, and the value unless it is exactly zero, an intentional quirk (R88). -/
def immText (r : Record) : Text :=
  if r.data = 0#16 then sizeKeyword r.word else sizeKeyword r.word ++ [' '] ++ dec r.data.toNat

/-- The first position: the destination slot, or the source slot where the direction is reversed (R86). -/
def firstText (r : Record) : Text := if r.rev then operandText (srcSlot r) else operandText (dstSlot r)

/-- The second position: the other slot (R86). -/
def secondText (r : Record) : Text := if r.rev then operandText (dstSlot r) else operandText (srcSlot r)

/-- The printed fields: an immediate suppresses the first position and follows the second (R87, R88). -/
def printedFields (r : Record) : List Text :=
  if r.flags.imm then [[], secondText r, immText r] else [firstText r, secondText r]

/-- The separator between printed fields: a comma and one space (R89). -/
def fieldSep : Text := [',', ' ']

/-- `Render(I)` for a Move record (R94): mnemonic, space, the non-empty fields, newline (R89, R90). -/
def render (r : Record) : Text :=
  ['m', 'o', 'v'] ++ [' '] ++ join fieldSep (nonempty (printedFields r)) ++ ['\n']

/-- A character that may stand before the newline of a line: 7-bit ASCII, and no newline (spec/20_memory.md R45). -/
def lineChar (c : Char) : Bool := decide (c.toNat < 128) && c != '\n'

/-- White space: the space and the control characters 9 to 13. -/
def isBlank (c : Char) : Bool := c == ' ' || (decide (9 ≤ c.toNat) && decide (c.toNat ≤ 13))

/-- One complete line out of any text: 7-bit ASCII, no white space before its newline, no other newline
(spec/20_memory.md R44, R45; R90). A text that is such a line without its newline is kept as it is. -/
def completeLine (t : Text) : Text := (t.filter lineChar).rdropWhile isBlank ++ ['\n']

/-- A text as bytes of 7-bit ASCII, one byte for each character (spec/20_memory.md R45). -/
def asciiBytes (t : Text) : List Byte := t.map fun c => BitVec.ofNat 8 c.toNat

end Sys2Proof.Machine
end

