-- ==== Sys2Proof/Config.lean ====
section
/-! DEFINITION. The open parameters of the spec, as constants without a body: no proof can see a value of one. -/

namespace Sys2Proof

/-- What a Push or Pop line says where PUSHPOP_RENDER gives one (spec/40_operand_resolution_and_printing.md R95:
the source gives it no definition). A free value, a function of the record alone (R97). The printer makes one complete
line of it (`Machine.completeLine`). Log entry 7. -/
opaque Config.pushPopText : Record → Text

/-- Which records a PUSHPOP_RENDER that decides record by record refuses (R95: "a text line or `refuse`").
A free value. Log entry 7. -/
opaque Config.pushPopDeclines : Record → Bool

/-- ERROR_MESSAGE, a function from error kind to text, used by the external caller only
(spec/00_scope.md R7, spec/60_exceptions.md R127). A free value. Log entry 27. -/
opaque Config.errorMessage : ErrorKind → Text

end Sys2Proof
end

