-- ==== Sys2Proof/Machine/State.lean ====
section
/-! DEFINITION. The state of the block as plain data, the reasons a step can stop, and the state after reset. -/

namespace Sys2Proof.Machine

/-- The setting of the parameter PUSHPOP_RENDER, "a text line or `refuse`" for each record
(spec/40_operand_resolution_and_printing.md R95). It is the model's own field: a parameter of the spec, not a piece of
the block's state. Log entry 7. -/
inductive PushPopSetting where
  /-- The default of R95: every Push and Pop record is refused, and the pass ends Refused. -/
  | refuse
  /-- Every record has a text line: the free value `Config.pushPopText`, made one complete line. -/
  | line
  /-- Record by record: `Config.pushPopDeclines` says which are refused; the others have a text line. -/
  | perRecord
deriving DecidableEq, Repr

/-- The pass status (spec/10_state.md R32). `done`, `failed` and `refused` are terminal. -/
inductive Status where
  | running
  | done
  | failed (kind : ErrorKind)
  | refused
deriving DecidableEq, Repr

/-- The state: the four items of spec/10_state.md R13, the byte source of the pass (spec/20_memory.md R36), and
the setting of the one parameter. -/
structure State where
  /-- The instruction record I (R14), fresh at every decode, dropped after its line (R22). Log entries 5 and 6. -/
  record : Record
  /-- The input cursor: the index in `input` of the next byte to read (R25). -/
  cur : Nat
  /-- OUT, what has been appended to the text sink in this pass (R33). -/
  out : Text
  /-- The pass status (R32). -/
  status : Status
  /-- IN[0..N-1], fixed before the pass begins and written by nothing (R36, R49). Log entry 2. -/
  input : List Byte
  /-- The setting of PUSHPOP_RENDER, fixed before the pass begins (R95). Log entry 7. -/
  pushPop : PushPopSetting
deriving DecidableEq, Repr

/-- Reasons the machine stops with a fault: none. The block's three error kinds are outcomes the spec describes
(spec/60_exceptions.md R129), taken as next states with status Failed(K), so no step ends here. Safe and unsafe do
not arise. Log entry 8. -/
inductive Fault where
deriving DecidableEq, Repr

/-- Reasons the model gives an instruction no meaning. -/
inductive Refusal where
  /-- Raised by an arm of `exec` whose instruction has no meaning yet; safe. Every instruction has one, so nothing
  raises it. -/
  | notModelled (mnemonic : String)
deriving DecidableEq, Repr

/-- The state at the start of a pass (spec/70_reset_and_hazards.md R140, R141, R143). The caller's byte source is
empty until one is given (log entry 2). PUSHPOP_RENDER is instantiated by the free text, so that a Push or Pop runs;
a pass under the default of R95 is started with `startPass` (log entry 7). -/
def State.reset : State where
  record := Record.zero
  cur := 0
  out := []
  status := .running
  input := []
  pushPop := .line

end Sys2Proof.Machine
end

