-- ==== Sys2Proof/Machine/Ops.lean ====
section
/-! DEFINITION. The named operations: reading the byte source, writing the text sink, taking an error, ending and
starting a pass, and the one turn of the driver that an instruction's meaning completes. -/

namespace Sys2Proof.Machine

/-! ## The byte source -/

/-- `NextByte()` on the byte source and the cursor: a byte and the advance, or EOS and no change
(spec/20_memory.md R37). The answer is the byte (`none` is EOS) and the new cursor. -/
def nextByte (input : List Byte) (cur : Nat) : Option Byte × Nat :=
  match input[cur]? with
  | some b => (some b, cur + 1)
  | none => (none, cur)

/-- The bytes not yet delivered, in stream order. -/
def pendingBytes (s : State) : List Byte := s.input.drop s.cur

/-! ## The text sink -/

/-- `Emit(t)`: append to OUT (spec/20_memory.md R44). -/
def emit (t : Text) (s : State) : State := { s with out := s.out ++ t }

/-- The first action of a pass (spec/43_translation_driver.md R115). -/
def emitHeader (s : State) : State := emit header s

/-! ## Errors, the end of a pass, the start of a pass -/

/-- Taking an error: the pass ends with status Failed(K), the cursor after the last byte delivered, the text kept,
the record of the failing instruction discarded (spec/60_exceptions.md R129 to R131). `consumed` counts the bytes of
the failing instruction that were delivered. -/
def fail (k : ErrorKind) (consumed : Nat) (s : State) : State :=
  { s with record := Record.zero, cur := s.cur + consumed, status := .failed k }

/-- The clean end: EOS at the opcode position (spec/43_translation_driver.md R116). The decode that found it left
the record at its zero values (R74). -/
def endPass (s : State) : State := { s with record := Record.zero, status := .done }

/-- The start of a pass on a byte source the caller supplies: reset (spec/70_reset_and_hazards.md R141). This is the
only way on after a pass is over; nothing resumes one (spec/60_exceptions.md R133). The setting of PUSHPOP_RENDER is
the caller's too and is handed over with the source (log entry 7). -/
def startPass (input : List Byte) (setting : PushPopSetting) : State :=
  { State.reset with input := input, pushPop := setting }

/-! ## Completing a decoded instruction -/

/-- The line of a Push or Pop record: the free text, made one complete line (R95, spec/20_memory.md R44). -/
def pushPopLine (r : Record) : Text := completeLine (Config.pushPopText r)

/-- `PUSHPOP_RENDER(I)`: a text line, or `none` for refuse (spec/40_operand_resolution_and_printing.md R95). -/
def pushPopRender (setting : PushPopSetting) (r : Record) : Option Text :=
  match setting with
  | .refuse => none
  | .line => some (pushPopLine r)
  | .perRecord => if Config.pushPopDeclines r then none else some (pushPopLine r)

/-- DecodeOne has returned the instruction: the cursor after it, and its record with both slots resolved
(spec/10_state.md R25, R79). -/
def advance (r : Record) (s : State) : State := { s with record := resolve r, cur := s.cur + r.len }

/-- The record is dropped after its line is emitted: none is left, which the zero record stands for
(spec/43_translation_driver.md R118, spec/10_state.md R22; log entry 6). -/
def dropRecord (s : State) : State := { s with record := Record.zero }

/-- One line emitted whole, and then the record it was made from dropped (R118). -/
def emitLine (line : Text) (s : State) : State := dropRecord (emit line s)

/-- A decoded Move: the line of the record (spec/43_translation_driver.md R114, R118). -/
def printMove (r : Record) (s : State) : State :=
  let t := advance r s
  emitLine (render t.record) t

/-- PUSHPOP_RENDER refused: the pass ends with the model-level outcome Refused, the cursor after the instruction
(R95, spec/60_exceptions.md R135). No line is emitted, and the refused record stays (log entry 5). -/
def refusePass (s : State) : State := { s with status := .refused }

/-- A decoded Push or Pop: the line PUSHPOP_RENDER gives for the record, or Refused (R114, R95). -/
def printPushPop (r : Record) (s : State) : State :=
  let t := advance r s
  match pushPopRender t.pushPop t.record with
  | none => refusePass t
  | some line => emitLine line t

/-! ## The turn of the driver -/

/-- What the driver does next (spec/43_translation_driver.md R114). -/
inductive Turn where
  /-- The pass is over: nothing (spec/10_state.md R32). -/
  | over
  /-- Emit the header (R115). -/
  | header
  /-- End cleanly (R116). -/
  | finish
  /-- Fail, the given number of bytes delivered (R117). -/
  | abort (kind : ErrorKind) (consumed : Nat)
  /-- Run the meaning of a recognised instruction (R118). -/
  | run (i : Instr)
deriving DecidableEq, Repr

/-- The turn a decode asks for. -/
def turnOf : Decoded → Turn
  | .endOfStream => .finish
  | .error k n => .abort k n
  | .instr i _ => .run i

/-- The driver's next turn. The header is due exactly while OUT is empty: it is the first text emitted in a pass and
it is not empty (R115; log entry 3). -/
def nextTurn (s : State) : Turn :=
  match s.status with
  | .running =>
    match s.out with
    | [] => .header
    | _ :: _ => turnOf (decode (pendingBytes s))
  | .done => .over
  | .failed _ => .over
  | .refused => .over

/-! ## The caller's view of an outcome -/

/-- The number of an error kind (spec/60_exceptions.md R126). -/
def errorCode : ErrorKind → Nat
  | .unknown => 1
  | .unimplemented => 2
  | .missingByte => 3

/-- The number of a pass status; 0 is no error, `Done` (R126). Running and Refused have none. -/
def statusCode : Status → Option Nat
  | .done => some 0
  | .failed k => some (errorCode k)
  | .running => none
  | .refused => none

/-- The original program's one failure signal: Unimplemented reads as Unknown (spec/60_exceptions.md R124). -/
def mergedKind : ErrorKind → ErrorKind
  | .unknown => .unknown
  | .unimplemented => .unknown
  | .missingByte => .missingByte

/-- The status under the merged signal (R124). -/
def mergedStatus : Status → Status
  | .failed k => .failed (mergedKind k)
  | .running => .running
  | .done => .done
  | .refused => .refused

/-- The message the caller reports after a failed pass, from ERROR_MESSAGE; the block itself writes none
(spec/60_exceptions.md R127). -/
def reportedMessage : Status → Option Text
  | .failed k => some (Config.errorMessage k)
  | .running => none
  | .done => none
  | .refused => none

/-! ## Placing an instruction where the driver reads next -/

/-- The byte source with `bs` at positions `cur`, `cur + 1`, …; everything else stays, and positions the source did
not have below `cur` read 0. -/
def overlay (input : List Byte) (cur : Nat) (bs : List Byte) : List Byte :=
  input.take cur ++ List.replicate (cur - input.length) 0 ++ bs ++ input.drop (cur + bs.length)

/-- The state with those bytes at the cursor and the driver at its decode turn: running, the header emitted
(log entry 9). -/
def placeBytes (bs : List Byte) (s : State) : State :=
  { s with
    input := overlay s.input s.cur bs
    out := if s.out.isEmpty then header else s.out
    status := .running }

end Sys2Proof.Machine
end

