-- ==== Sys2Proof/Machine/Move.lean ====
section
/-! DEFINITION. The move family (spec/41_move.md): the record of each form, and its meaning. -/

namespace Sys2Proof.Machine

/-- The record of MOV_RM_R (R99). -/
def recordMovRmR (d w : Bool) (reg : RegCode) (rm : Rm) : Record :=
  withModRm
    { op := .move
      flags := { d := true, wlow := true, modrm := true }
      rev := d
      word := w
      len := 2 + rm.extraBytes.length } reg rm

/-- The record of MOV_RM_IMM: bit 1 of both opcodes is 1, so the direction is always reversed (R100). -/
def recordMovRmImm (reg : RegCode) (rm : Rm) (data : Sized) : Record :=
  withModRm
    { op := .move
      flags := { d := true, wlow := true, modrm := true, imm := true }
      rev := true
      word := data.isWord
      data := data.value
      len := 2 + rm.extraBytes.length + data.bytes.length } reg rm

/-- The record of MOV_R_IMM (R101). -/
def recordMovRImm (reg : RegCode) (data : Sized) : Record :=
  { op := .move
    flags := { w3 := true, regop := true, imm := true }
    word := data.isWord
    reg := reg
    data := data.value
    len := 1 + data.bytes.length }

/-- The record of MOV_ACC_MEM: bit 1 of the opcode is 0 (R102). -/
def recordMovAccMem (addr : Sized) : Record :=
  { op := .move
    flags := { d := true, wlow := true, acc := true }
    word := addr.isWord
    addr := addr.value
    len := 1 + addr.bytes.length }

/-- The record of MOV_MEM_ACC: bit 1 of the opcode is 1 (R103). -/
def recordMovMemAcc (addr : Sized) : Record :=
  { op := .move
    flags := { d := true, wlow := true, acc := true }
    rev := true
    word := addr.isWord
    addr := addr.value
    len := 1 + addr.bytes.length }

/-- MOV register/memory to or from register (R99). -/
def execMovRmR (d w : Bool) (reg : RegCode) (rm : Rm) (s : State) : Host.Outcome State Fault Refusal :=
  .next (printMove (recordMovRmR d w reg rm) s)

/-- MOV immediate to register or memory (R100). -/
def execMovRmImm (reg : RegCode) (rm : Rm) (data : Sized) (s : State) : Host.Outcome State Fault Refusal :=
  .next (printMove (recordMovRmImm reg rm data) s)

/-- MOV immediate to register (R101). -/
def execMovRImm (reg : RegCode) (data : Sized) (s : State) : Host.Outcome State Fault Refusal :=
  .next (printMove (recordMovRImm reg data) s)

/-- MOV memory to accumulator (R102). -/
def execMovAccMem (addr : Sized) (s : State) : Host.Outcome State Fault Refusal :=
  .next (printMove (recordMovAccMem addr) s)

/-- MOV accumulator to memory (R103). -/
def execMovMemAcc (addr : Sized) (s : State) : Host.Outcome State Fault Refusal :=
  .next (printMove (recordMovMemAcc addr) s)

/-- MOV to a segment register, 0x8E: the error Unimplemented is taken after the opcode byte alone (R104, R58). -/
def execMovSrRm (s : State) : Host.Outcome State Fault Refusal := .next (fail .unimplemented 1 s)

/-- MOV from a segment register, 0x8C: the error Unimplemented is taken after the opcode byte alone (R104, R58). -/
def execMovRmSr (s : State) : Host.Outcome State Fault Refusal := .next (fail .unimplemented 1 s)

end Sys2Proof.Machine
end

