-- ==== Sys2Proof/Machine/PushPop.lean ====
section
/-! DEFINITION. The push and pop shapes (spec/42_push_pop.md): the record of each form, and its meaning. No row sets
a width, direction, immediate or accumulator flag. -/

namespace Sys2Proof.Machine

/-- The record of PUSH_RM; REG is stored and not checked (R106). -/
def recordPushRm (reg : RegCode) (rm : Rm) : Record :=
  withModRm { op := .push, flags := { modrm := true }, len := 2 + rm.extraBytes.length } reg rm

/-- The record of PUSH_R (R107). -/
def recordPushR (reg : RegCode) : Record := { op := .push, flags := { regop := true }, reg := reg, len := 1 }

/-- The record of PUSH_SR: bits 5 to 3 of the opcode byte, no table lookup (R108, R62). -/
def recordPushSr (code : RegCode) : Record := { op := .push, flags := { regdirect := true }, reg := code, len := 1 }

/-- The record of POP_RM; REG is stored and not checked (R109). -/
def recordPopRm (reg : RegCode) (rm : Rm) : Record :=
  withModRm { op := .pop, flags := { modrm := true }, len := 2 + rm.extraBytes.length } reg rm

/-- The record of POP_R (R110). -/
def recordPopR (reg : RegCode) : Record := { op := .pop, flags := { regop := true }, reg := reg, len := 1 }

/-- The record of POP_SR (R111). -/
def recordPopSr (code : RegCode) : Record := { op := .pop, flags := { regdirect := true }, reg := code, len := 1 }

/-- PUSH register or memory (R106). -/
def execPushRm (reg : RegCode) (rm : Rm) (s : State) : Host.Outcome State Fault Refusal :=
  .next (printPushPop (recordPushRm reg rm) s)

/-- PUSH register (R107). -/
def execPushR (reg : RegCode) (s : State) : Host.Outcome State Fault Refusal :=
  .next (printPushPop (recordPushR reg) s)

/-- PUSH segment register (R108). -/
def execPushSr (code : RegCode) (s : State) : Host.Outcome State Fault Refusal :=
  .next (printPushPop (recordPushSr code) s)

/-- POP register or memory (R109). -/
def execPopRm (reg : RegCode) (rm : Rm) (s : State) : Host.Outcome State Fault Refusal :=
  .next (printPushPop (recordPopRm reg rm) s)

/-- POP register (R110). -/
def execPopR (reg : RegCode) (s : State) : Host.Outcome State Fault Refusal :=
  .next (printPushPop (recordPopR reg) s)

/-- POP segment register (R111). -/
def execPopSr (code : RegCode) (s : State) : Host.Outcome State Fault Refusal :=
  .next (printPushPop (recordPopSr code) s)

end Sys2Proof.Machine
end

