-- ==== Sys2Proof/Machine/Dispatch.lean ====
section
/-! DEFINITION. One arm per constructor of Instr. -/

namespace Sys2Proof.Machine

/-- The effect of a recognised instruction: one turn of the driver's loop (spec/43_translation_driver.md R114). -/
def exec (i : Instr) (s : State) : Host.Outcome State Fault Refusal :=
  match i with
  | .movRmR d w reg rm => Sys2Proof.Machine.execMovRmR d w reg rm s
  | .movRmImm reg rm data => Sys2Proof.Machine.execMovRmImm reg rm data s
  | .movRImm reg data => Sys2Proof.Machine.execMovRImm reg data s
  | .movAccMem addr => Sys2Proof.Machine.execMovAccMem addr s
  | .movMemAcc addr => Sys2Proof.Machine.execMovMemAcc addr s
  | .movSrRm => Sys2Proof.Machine.execMovSrRm s
  | .movRmSr => Sys2Proof.Machine.execMovRmSr s
  | .pushRm reg rm => Sys2Proof.Machine.execPushRm reg rm s
  | .pushR reg => Sys2Proof.Machine.execPushR reg s
  | .pushSr code => Sys2Proof.Machine.execPushSr code s
  | .popRm reg rm => Sys2Proof.Machine.execPopRm reg rm s
  | .popR reg => Sys2Proof.Machine.execPopR reg s
  | .popSr code => Sys2Proof.Machine.execPopSr code s

end Sys2Proof.Machine
end

