-- ==== Sys2Proof/Machine/Step.lean ====
section
/-! DEFINITION. One step: one turn of the translation driver (spec/43_translation_driver.md R114). -/

namespace Sys2Proof.Machine

/-- One turn of the driver: the header, a clean end, an error, or one instruction decoded, resolved and printed.
A pass that is over stays as it is (spec/10_state.md R32, spec/20_memory.md R47 (e); log entry 4). -/
def step (s : State) : Host.Outcome State Fault Refusal :=
  match nextTurn s with
  | .over => .next s
  | .header => .next (emitHeader s)
  | .finish => .next (endPass s)
  | .abort k n => .next (fail k n s)
  | .run i => exec i s

/-- The state with the instruction whose bits are `w` (numbered as spec/opcode_table.json numbers them) placed where
`step` reads its next instruction, so that the very next step runs it (log entry 9). -/
def State.withFetchWord (s : State) (nbits w : Nat) : State := placeBytes (tableBytes nbits w) s

end Sys2Proof.Machine
end

