-- ==== Sys2Proof/Machine/DecodeOne.lean ====
section
/-! DEFINITION. `DecodeOne` as the spec writes it (spec/30_encoding.md R60 to R67, R74): the classifier's flags alone
govern what is read, one `NextByte` at a time. It is one of the block's two functions (spec/00_scope.md R3), and the
reference the per-form records of Move.lean and PushPop.lean are held against. -/

namespace Sys2Proof.Machine

/-- The outcome of a DecodeOne transaction (spec/10_state.md R32). The record it hands over has unresolved slots. -/
inductive DecodeOutcome where
  | instr (r : Record)
  | endOfStream
  | err (kind : ErrorKind)
deriving DecidableEq, Repr

/-- A step of the extractor: the record so far and the cursor go in; the record, or nothing where a byte is missing,
and the cursor come out. -/
abbrev Extracted := Option Record × Nat

/-- The next extraction step, unless a byte was missing (R67, R68). -/
def Extracted.andThen (e : Extracted) (f : Record → Nat → Extracted) : Extracted :=
  match e with
  | (some r, c) => f r c
  | (none, c) => (none, c)

/-- Two `NextByte` calls, little-endian (spec/20_memory.md R39, R41). -/
def nextWord (input : List Byte) (cur : Nat) : Option Word × Nat :=
  match nextByte input cur with
  | (none, c) => (none, c)
  | (some lo, c) =>
    match nextByte input c with
    | (none, c') => (none, c')
    | (some hi, c') => (some (le16 lo hi), c')

/-- `ReadWidth()`: one or two bytes by I.WORD (R74). -/
def nextSized (word : Bool) (input : List Byte) (cur : Nat) : Option Word × Nat :=
  if word then nextWord input cur
  else match nextByte input cur with
    | (none, c) => (none, c)
    | (some b, c) => (some (zext16 b), c)

/-- Step 1: operation, flags, direction, width, and the register code the opcode byte carries (R60, R61, R62). -/
def opcodeFields (op : Op) (f : LayoutFlags) (b0 : Byte) : Record :=
  { op := op
    flags := f
    rev := revFlag f b0
    word := wordFlag f b0
    reg := if f.regop then opcodeReg b0 else if f.regdirect then opcodeSeg b0 else 0 }

/-- Step 2: the ModRM byte (R63). -/
def readModRm (input : List Byte) (r : Record) (cur : Nat) : Extracted :=
  match nextByte input cur with
  | (none, c) => (none, c)
  | (some m, c) => (some (withCodes r (modField m) (regField m) (rmField m)), c)

/-- Step 3: the displacement or direct address (R64). -/
def readDisp (input : List Byte) (r : Record) (cur : Nat) : Extracted :=
  if r.direct ∨ r.mod = 2#2 then
    match nextWord input cur with
    | (none, c) => (none, c)
    | (some v, c) => (some { r with disp := v }, c)
  else if r.mod = 1#2 then
    match nextByte input cur with
    | (none, c) => (none, c)
    | (some d, c) => (some { r with disp := sext16 d }, c)
  else (some r, cur)

/-- Step 4: the accumulator address (R65). -/
def readAddr (input : List Byte) (r : Record) (cur : Nat) : Extracted :=
  match nextSized r.word input cur with
  | (none, c) => (none, c)
  | (some v, c) => (some { r with addr := v }, c)

/-- Step 5: the immediate data (R66). -/
def readData (input : List Byte) (r : Record) (cur : Nat) : Extracted :=
  match nextSized r.word input cur with
  | (none, c) => (none, c)
  | (some v, c) => (some { r with data := v }, c)

/-- A step that its layout flag gates (R51). -/
def gated (flag : Bool) (f : Record → Nat → Extracted) (r : Record) (cur : Nat) : Extracted :=
  if flag then f r cur else (some r, cur)

/-- Steps 2 to 5 in order, each gated by its flag (R68). -/
def extract (input : List Byte) (r : Record) (cur : Nat) : Extracted :=
  let e := gated r.flags.modrm (readModRm input) r cur
  let e := e.andThen (gated r.flags.modrm (readDisp input))
  let e := e.andThen (gated r.flags.acc (readAddr input))
  e.andThen (gated r.flags.imm (readData input))

/-- `DecodeOne()` from the cursor: its outcome and the cursor after it (R74). -/
def decodeOne (input : List Byte) (cur : Nat) : DecodeOutcome × Nat :=
  match nextByte input cur with
  | (none, c) => (.endOfStream, c)
  | (some b0, c) =>
    match classify b0 with
    | none => (.err .unknown, c)
    | some row =>
      match row.op with
      | none => (.err .unimplemented, c)
      | some op =>
        match extract input (opcodeFields op row.flags b0) c with
        | (none, c') => (.err .missingByte, c')
        | (some r, c') => (.instr { r with len := c' - cur }, c')

/-- The record a DecodeOne transaction leaves: the decoded one, or the zero record it started from
(R74, spec/60_exceptions.md R130). -/
def outcomeRecord : DecodeOutcome → Record
  | .instr r => r
  | .endOfStream => Record.zero
  | .err _ => Record.zero

/-- A DecodeOne transaction called by itself (spec/00_scope.md R3, R5): its outcome goes to the caller; the record and
the cursor change, and nothing else. -/
def callDecodeOne (s : State) : DecodeOutcome × State :=
  let o := decodeOne s.input s.cur
  (o.1, { s with record := outcomeRecord o.1, cur := o.2 })

end Sys2Proof.Machine
end

