-- ==== Sys2Proof/Machine/Translate.lean ====
section
/-! DEFINITION. `Translate` as the spec writes it (spec/43_translation_driver.md R114), and a run of the machine's
own steps, which is the same pass turn by turn. -/

namespace Sys2Proof.Machine

/-- What a pass returns: the status, the final cursor and the final text (R114). -/
structure PassResult where
  status : Status
  cur : Nat
  out : Text
deriving DecidableEq, Repr

/-- The loop of `Translate` (R114), at most `fuel` calls of DecodeOne; the result is still running where that is
too few. `N + 1` are always enough (R119). -/
def translateLoop (input : List Byte) (setting : PushPopSetting) : Nat → Nat → Text → PassResult
  | 0, cur, out => ⟨.running, cur, out⟩
  | fuel + 1, cur, out =>
    match decodeOne input cur with
    | (.endOfStream, c) => ⟨.done, c, out⟩
    | (.err k, c) => ⟨.failed k, c, out⟩
    | (.instr r, c) =>
      if r.op = .move then translateLoop input setting fuel c (out ++ render (resolve r))
      else
        match pushPopRender setting (resolve r) with
        | none => ⟨.refused, c, out⟩
        | some t => translateLoop input setting fuel c (out ++ t)

/-- `Translate()` on a byte source (R114): the header, then the loop. -/
def translate (input : List Byte) (setting : PushPopSetting) : PassResult :=
  translateLoop input setting (input.length + 1) 0 header

/-- `n` steps of the machine, from a state to a state; it stops where a step gives no next state. -/
def runSteps : Nat → State → State
  | 0, s => s
  | n + 1, s =>
    match step s with
    | .next s' => runSteps n s'
    | .fault _ => s
    | .refused _ => s

/-- What the caller reads of a state after a pass (spec/70_reset_and_hazards.md R145, R151). -/
def passResult (s : State) : PassResult := ⟨s.status, s.cur, s.out⟩

end Sys2Proof.Machine
end

