-- ==== Sys2Proof/Safety.lean ====
section
/-! DEFINITION. The terms that claims use: what a decoded instruction is in the record's words, which texts are in
the output grammar, and what a state of a pass must look like. -/

namespace Sys2Proof.Machine

/-! ## States of a pass -/

/-- A pass that is over (spec/10_state.md R32). -/
def Status.terminal : Status → Bool
  | .running => false
  | .done => true
  | .failed _ => true
  | .refused => true

/-- The driver stands at the top of its loop: running, the header emitted (spec/43_translation_driver.md R114). -/
def State.AtDecode (s : State) : Prop := s.status = .running ∧ s.out ≠ []

/-! ## Instructions in the record's words -/

/-- The record DecodeOne hands over for an instruction, its slots unresolved; the segment-register moves hand over
none (spec/41_move.md R99 to R104, spec/42_push_pop.md R106 to R111). -/
def decodedRecord : Instr → Option Record
  | .movRmR d w reg rm => some (recordMovRmR d w reg rm)
  | .movRmImm reg rm data => some (recordMovRmImm reg rm data)
  | .movRImm reg data => some (recordMovRImm reg data)
  | .movAccMem addr => some (recordMovAccMem addr)
  | .movMemAcc addr => some (recordMovMemAcc addr)
  | .movSrRm => none
  | .movRmSr => none
  | .pushRm reg rm => some (recordPushRm reg rm)
  | .pushR reg => some (recordPushR reg)
  | .pushSr code => some (recordPushSr code)
  | .popRm reg rm => some (recordPopRm reg rm)
  | .popR reg => some (recordPopR reg)
  | .popSr code => some (recordPopSr code)

/-- The line an instruction prints, where it prints one (spec/43_translation_driver.md R114). -/
def printedLine (setting : PushPopSetting) (i : Instr) : Option Text :=
  match decodedRecord i with
  | none => none
  | some r => if r.op = .move then some (render r) else pushPopRender setting (resolve r)

/-- The operand an RM field stands for, row by row of the addressing table
(spec/40_operand_resolution_and_printing.md R98). -/
def rmOperand (word : Bool) : Rm → Operand
  | .mem c => .effectiveAddress (eaBase c) 0
  | .direct a => .directAddress a
  | .mem8 c d => .effectiveAddress (eaBase c) (sext16 d)
  | .mem16 c d => .effectiveAddress (eaBase c) d
  | .reg c => .register (regW word c)

/-- Uses-effective-address: every RM operand but a register (spec/30_encoding.md R63). -/
def rmIsMemory : Rm → Bool
  | .reg _ => false
  | .mem _ => true
  | .direct _ => true
  | .mem8 _ _ => true
  | .mem16 _ _ => true

/-- Uses-direct-address (spec/30_encoding.md R63). -/
def rmIsDirect : Rm → Bool
  | .direct _ => true
  | .reg _ => false
  | .mem _ => false
  | .mem8 _ _ => false
  | .mem16 _ _ => false

/-- `I.len = 1 + nM + nD + nA + nI` from the record's flags and MOD (spec/30_encoding.md R69). -/
def lengthFormula (r : Record) : Nat :=
  let sized := if r.word then 2 else 1
  let nM := if r.flags.modrm then 1 else 0
  let nD := if r.direct then 2 else if r.flags.modrm ∧ r.mod = 1 then 1 else if r.flags.modrm ∧ r.mod = 2 then 2 else 0
  let nA := if r.flags.acc then sized else 0
  let nI := if r.flags.imm then sized else 0
  1 + nM + nD + nA + nI

/-! ## Lines (spec/20_memory.md R44, R45) -/

/-- A complete line: 7-bit ASCII, its one newline at its end, no white space before that. -/
def IsLine (t : Text) : Prop :=
  ∃ body, t = body ++ ['\n'] ∧ (∀ c ∈ body, c.toNat < 128 ∧ c ≠ '\n') ∧ ∀ c, body.getLast? = some c → isBlank c = false

/-! ## The output grammar (R92) -/

/-- The digits. -/
def digits : Text := ['0', '1', '2', '3', '4', '5', '6', '7', '8', '9']

/-- Every character the block's own rules can print (spec/20_memory.md R45). -/
def alphabet : Text :=
  ['a', 'b', 'c', 'd', 'e', 'f', 'g', 'h', 'i', 'j', 'k', 'l', 'm', 'n', 'o', 'p', 'q', 'r', 's', 't', 'u',
    'v', 'w', 'x', 'y', 'z'] ++ digits ++
    [' ', ',', '[', ']', '+', '-', '\n']

/-- A decimal numeral with no leading zeros. -/
def IsNumber (t : Text) : Prop := t ≠ [] ∧ (∀ c ∈ t, c ∈ digits) ∧ (t.head? = some '0' → t = ['0'])

/-- The number a numeral stands for. -/
def numeralValue (t : Text) : Nat := t.foldl (fun v c => 10 * v + (c.toNat - 48)) 0

/-- A register field. -/
def IsReg (t : Text) : Prop :=
  t ∈ ["al".toList, "cl".toList, "dl".toList, "bl".toList, "ah".toList, "ch".toList, "dh".toList, "bh".toList,
    "ax".toList, "cx".toList, "dx".toList, "bx".toList, "sp".toList, "bp".toList, "si".toList, "di".toList]

/-- A base of an effective address. -/
def IsBase (t : Text) : Prop :=
  t ∈ ["bx+si".toList, "bx+di".toList, "bp+si".toList, "bp+di".toList, "si".toList, "di".toList, "bp".toList,
    "bx".toList]

/-- A memory field: `[base]`, `[base +n]`, `[base -n]` with n never 0, or `[n]`. -/
def IsMem (t : Text) : Prop :=
  ∃ inner, t = '[' :: (inner ++ [']']) ∧
    (IsBase inner ∨ IsNumber inner ∨
      ∃ base sign n, IsBase base ∧ (sign = '+' ∨ sign = '-') ∧ IsNumber n ∧ n ≠ ['0'] ∧
        inner = base ++ ' ' :: sign :: n)

/-- An immediate field: a size keyword, alone or with a number that is never 0. -/
def IsImm (t : Text) : Prop :=
  ∃ size ∈ ["byte".toList, "word".toList], t = size ∨ ∃ n, IsNumber n ∧ n ≠ ['0'] ∧ t = size ++ ' ' :: n

/-- A Move line: two fields, the last of them possibly an immediate. -/
def IsMoveLine (t : Text) : Prop :=
  ∃ a b, (IsReg a ∨ IsMem a) ∧ (IsReg b ∨ IsMem b ∨ IsImm b) ∧
    t = "mov ".toList ++ a ++ ", ".toList ++ b ++ "\n".toList

/-! ## Invariants of a pass -/

/-- What the consumed bytes after the last printed instruction are, by the status (spec/43_translation_driver.md R116
to R118, spec/60_exceptions.md R131, spec/40_operand_resolution_and_printing.md R95). -/
def TailMatches (s : State) (tail : List Byte) : Prop :=
  match s.status with
  | .running => tail = []
  | .done => tail = [] ∧ s.cur = s.input.length
  | .failed .unknown => ∃ b, tail = [b] ∧ classify b = none
  | .failed .unimplemented => tail = [0x8E] ∨ tail = [0x8C]
  | .failed .missingByte =>
    s.cur = s.input.length ∧
      ∃ i, i.wellFormed = true ∧ tail ≠ [] ∧ tail ≠ encode i ∧ tail <+: encode i
  | .refused =>
    ∃ i r, i.wellFormed = true ∧ tail = encode i ∧ decodedRecord i = some r ∧ printedLine s.pushPop i = none

/-- The instructions `is`, one after another, are what the pass has consumed, and their lines, one each, are what it
has printed after the header (spec/10_state.md R33, spec/20_memory.md R47). -/
def Printed (s : State) (is : List Instr) : Prop :=
  (∀ i ∈ is, i.wellFormed = true) ∧
  (∃ lines : List Text, is.map (printedLine s.pushPop) = lines.map some ∧ s.out = header ++ lines.flatten) ∧
  s.cur ≤ s.input.length ∧
  ∃ tail, s.input.take s.cur = (is.map encode).flatten ++ tail ∧ TailMatches s tail

/-- The invariant of a pass: nothing done yet, or header and lines match the consumed bytes. -/
def PassInv (s : State) : Prop :=
  (s.out = [] ∧ s.cur = 0 ∧ s.status = .running) ∨ ∃ is, Printed s is

/-- The text is nothing yet, or the header and complete lines, under any setting of PUSHPOP_RENDER (R44, R45). -/
def LinesInv (s : State) : Prop :=
  s.out = [] ∨ ∃ lines : List Text, s.out = header ++ lines.flatten ∧ ∀ l ∈ lines, IsLine l

/-- The text is nothing yet, or the header and whole Move lines of the grammar. It holds of passes under the default of
PUSHPOP_RENDER; another setting prints lines whose grammar is not settled (R92, R95). -/
def GrammarInv (s : State) : Prop :=
  s.pushPop = .refuse ∧
    (s.out = [] ∨ ∃ lines : List Text, s.out = header ++ lines.flatten ∧ ∀ l ∈ lines, IsMoveLine l)

end Sys2Proof.Machine
end

