-- ==== Sys2Proof/Certificates/Slice0/Obligations.lean ====
section
/-! DEFINITION. The statements for the provers. Each docstring names the rule of spec/ it formalises, or says whose
choice it rests on. A lead-in "Derived:" marks a statement that rests on an inference or a decision of the spec's own
or of the model's. -/

open Sys2Proof Sys2Proof.Machine

/-! ## The classifier -/

/-- Twelve patterns, each with its operation and its layout flags, and no match for any other byte
(spec/30_encoding.md R55). -/
def Obligations.ClassifierFollowsTable : Prop :=
  ∀ b : Byte,
    let got := (classify b).map fun r => (r.op, r.flags)
    (b &&& 0xFC = 0x88 → got = some (some .move, { d := true, wlow := true, modrm := true })) ∧
    (b &&& 0xFE = 0xC6 → got = some (some .move, { d := true, wlow := true, modrm := true, imm := true })) ∧
    (b &&& 0xF0 = 0xB0 → got = some (some .move, { w3 := true, regop := true, imm := true })) ∧
    (b &&& 0xFE = 0xA0 → got = some (some .move, { d := true, wlow := true, acc := true })) ∧
    (b &&& 0xFE = 0xA2 → got = some (some .move, { d := true, wlow := true, acc := true })) ∧
    (b = 0x8E ∨ b = 0x8C → got = some (none, {})) ∧
    (b = 0xFF → got = some (some .push, { modrm := true })) ∧
    (b &&& 0xF8 = 0x50 → got = some (some .push, { regop := true })) ∧
    (b &&& 0xC7 = 0x06 → got = some (some .push, { regdirect := true })) ∧
    (b = 0x8F → got = some (some .pop, { modrm := true })) ∧
    (b &&& 0xF8 = 0x58 → got = some (some .pop, { regop := true })) ∧
    (b &&& 0xC7 = 0x07 → got = some (some .pop, { regdirect := true })) ∧
    (¬(b &&& 0xFC = 0x88 ∨ b &&& 0xFE = 0xC6 ∨ b &&& 0xF0 = 0xB0 ∨ b &&& 0xFE = 0xA0 ∨ b &&& 0xFE = 0xA2 ∨
        b = 0x8E ∨ b = 0x8C ∨ b = 0xFF ∨ b &&& 0xF8 = 0x50 ∨ b &&& 0xC7 = 0x06 ∨ b = 0x8F ∨ b &&& 0xF8 = 0x58 ∨
        b &&& 0xC7 = 0x07) → got = none)

/-- Derived: no byte matches two entries of the table, 62 byte values match one, and the order of the table does not
matter to the result (the spec's own check, spec/30_encoding.md section 2). -/
def Obligations.ClassifierRowsDisjoint : Prop :=
  (∀ b : Byte, ∀ r₁ ∈ classTable, ∀ r₂ ∈ classTable, r₁.accepts b = true → r₂.accepts b = true → r₁ = r₂) ∧
    ((List.range 256).filter fun n => (classify (BitVec.ofNat 8 n)).isSome).length = 62

/-! ## Decode and encode -/

/-- Words of the spec's own examples and tables decode to the instructions they stand for. -/
def Obligations.SpecWordsDecode : Prop :=
  decode [0b10001000, 0b11000110] = .instr (.movRmR false false 0 (.reg 6)) [] ∧
    decode [0b10001011, 0b01000001, 0b11011011] = .instr (.movRmR true true 0 (.mem8 1 0xDB)) [] ∧
    decode [0xC7, 0x85, 0x85, 0x03, 0x5B, 0x01] = .instr (.movRmImm 0 (.mem16 5 901) (.word 347)) [] ∧
    decode [0b10110001, 0b00001100] = .instr (.movRImm 1 (.byte 12)) [] ∧
    decode [0xA0, 0x34, 0x12] = .instr (.movAccMem (.byte 52)) [0x12] ∧
    decode [0xFF, 0x36, 0x82, 0x0D] = .instr (.pushRm 6 (.direct 3458)) [] ∧
    decode [0x1E] = .instr (.pushSr 3) [] ∧
    decode [0x8F, 0x46, 0x02] = .instr (.popRm 0 (.mem8 6 2)) [] ∧
    decode [0x90] = .error .unknown 1 ∧
    decode [0x8B, 0x9E, 0x01] = .error .missingByte 3

/-- Derived: the bytes of a well-formed instruction, whatever follows them, decode to that instruction, and what
follows is left (the encoding patterns of spec/30_encoding.md sections 1 to 3). -/
def Obligations.DecodeOfEncode : Prop :=
  ∀ i : Instr, i.wellFormed = true → ∀ rest : List Byte, decode (encode i ++ rest) = .instr i rest

/-- Derived: what decodes is the encoding of a well-formed instruction and the bytes after it: no bit is dropped and
no two encodings share an instruction (spec/30_encoding.md sections 1 to 4). -/
def Obligations.EncodeOfDecode : Prop :=
  ∀ (bs rest : List Byte) (i : Instr), decode bs = .instr i rest → i.wellFormed = true ∧ bs = encode i ++ rest

/-- Derived: an instruction is 1 to 6 bytes long, and its record's length is that number and the number the flags give
(spec/30_encoding.md section 4, the spec's own derivation). -/
def Obligations.LengthOneToSix : Prop :=
  ∀ i : Instr, 1 ≤ (encode i).length ∧ (encode i).length ≤ 6 ∧
    ∀ r, decodedRecord i = some r → r.len = (encode i).length ∧ (i.wellFormed = true → lengthFormula r = r.len)

/-- Derived: the first two bytes alone fix the length (spec/30_encoding.md section 4, the spec's own derivation). -/
def Obligations.LengthFromFirstTwoBytes : Prop :=
  ∀ i j : Instr, i.wellFormed = true → j.wellFormed = true → (encode i).take 2 = (encode j).take 2 →
    (encode i).length = (encode j).length

/-! ## DecodeOne -/

/-- Derived: the flag-governed DecodeOne of spec/30_encoding.md section 6 and the per-form decoder with the per-form
records of spec/41_move.md and spec/42_push_pop.md give the same outcome, the same record and the same cursor, from
every position of every byte source. -/
def Obligations.DecodeOneAgreesWithForms : Prop :=
  ∀ (input : List Byte) (cur : Nat),
    decodeOne input cur =
      match decode (input.drop cur) with
      | .endOfStream => (.endOfStream, cur)
      | .error k n => (.err k, cur + n)
      | .instr i _ =>
        match decodedRecord i with
        | some r => (.instr r, cur + r.len)
        | none => (.err .unimplemented, cur + 1)

/-- A byte that none of the patterns takes fails as Unknown, with that one byte consumed and nothing more
(spec/30_encoding.md R57). -/
def Obligations.UnmatchedByteIsUnknown : Prop :=
  ∀ (input : List Byte) (cur : Nat) (b : Byte), input[cur]? = some b →
    ¬(b &&& 0xFC = 0x88 ∨ b &&& 0xFE = 0xC6 ∨ b &&& 0xF0 = 0xB0 ∨ b &&& 0xFE = 0xA0 ∨ b &&& 0xFE = 0xA2 ∨
        b = 0x8E ∨ b = 0x8C ∨ b = 0xFF ∨ b &&& 0xF8 = 0x50 ∨ b &&& 0xC7 = 0x06 ∨ b = 0x8F ∨ b &&& 0xF8 = 0x58 ∨
        b &&& 0xC7 = 0x07) →
    decodeOne input cur = (.err .unknown, cur + 1)

/-- Derived: such a byte at the driver's decode ends the pass as Failed(Unknown), the text kept, the cursor past that
byte (spec/43_translation_driver.md, the failure of a pass; the cursor is the spec's decision D17, and that the record
is the zero record then is log entry 6). -/
def Obligations.UnmatchedByteEndsPass : Prop :=
  ∀ (s : State) (b : Byte), s.AtDecode → s.input[s.cur]? = some b → classify b = none →
    step s = .next { s with record := Record.zero, cur := s.cur + 1, status := .failed .unknown }

/-- The two segment-register moves fail as Unimplemented, a kind distinct from Unknown, with the opcode byte alone
consumed, whatever follows it (spec/30_encoding.md R58). -/
def Obligations.SegmentMoveIsUnimplemented : Prop :=
  ∀ (input : List Byte) (cur : Nat), (input[cur]? = some 0x8E ∨ input[cur]? = some 0x8C) →
    decodeOne input cur = (.err .unimplemented, cur + 1) ∧ ErrorKind.unimplemented ≠ ErrorKind.unknown

/-- A source that ends inside an instruction, at whatever byte after the first, fails as MissingByte with every byte
consumed; at the opcode position it is the end of the stream (spec/30_encoding.md R67). -/
def Obligations.TruncationIsMissingByte : Prop :=
  (∀ i : Instr, i.wellFormed = true → ∀ part : List Byte, part <+: encode i → part ≠ [] → part ≠ encode i →
    ∀ before : List Byte,
      decodeOne (before ++ part) before.length = (.err .missingByte, before.length + part.length)) ∧
  ∀ before : List Byte, decodeOne before before.length = (.endOfStream, before.length)

/-- The ModRM byte, for every row that has one: MOD, REG and RM by value, effective-address mode and direct-address
mode from them, MissingByte where the byte is not there; and the raw codes where there is none
(spec/30_encoding.md R63, spec/10_state.md R19). -/
def Obligations.ModRmFields : Prop :=
  (∀ (input : List Byte) (cur c : Nat) (r : Record), decodeOne input cur = (.instr r, c) →
    (r.flags.modrm = true →
      ∃ m : Byte, input[cur + 1]? = some m ∧ r.mod.toNat = m.toNat / 64 ∧ r.reg.toNat = m.toNat / 8 % 8 ∧
        r.rm.toNat = m.toNat % 8 ∧ r.ea = decide (r.mod.toNat < 3) ∧
        r.direct = decide (r.mod.toNat = 0 ∧ r.rm.toNat = 6)) ∧
    (r.flags.modrm = false → r.mod = 0 ∧ r.rm = 0 ∧ (r.flags.regop = false → r.flags.regdirect = false → r.reg = 0))) ∧
  ∀ (input : List Byte) (cur : Nat) (b : Byte) (row : ClassRow), input[cur]? = some b → classify b = some row →
    row.flags.modrm = true → input[cur + 1]? = none → decodeOne input cur = (.err .missingByte, cur + 1)

/-- Derived: the displacement by MOD and RM: both bytes of a direct address, one byte sign-extended, two bytes read
as a two's-complement number, else 0 (spec/30_encoding.md section 3 with the spec's decisions D10 and D25). -/
def Obligations.DisplacementField : Prop :=
  ∀ (input : List Byte) (cur c : Nat) (r : Record), decodeOne input cur = (.instr r, c) → r.flags.modrm = true →
    (r.direct = true → ∃ lo hi : Byte, input[cur + 2]? = some lo ∧ input[cur + 3]? = some hi ∧
      r.disp.toNat = lo.toNat + 256 * hi.toNat) ∧
    (r.mod = 1 → ∃ d : Byte, input[cur + 2]? = some d ∧
      r.disp.toInt = if d.toNat < 128 then (d.toNat : Int) else (d.toNat : Int) - 256) ∧
    (r.mod = 2 → ∃ lo hi : Byte, input[cur + 2]? = some lo ∧ input[cur + 3]? = some hi ∧
      r.disp.toInt = if lo.toNat + 256 * hi.toNat < 32768 then ((lo.toNat + 256 * hi.toNat : Nat) : Int)
        else ((lo.toNat + 256 * hi.toNat : Nat) : Int) - 65536) ∧
    (r.direct = false → r.mod ≠ 1 → r.mod ≠ 2 → r.disp = 0)

/-- The accumulator address: one byte at byte width, two little-endian at word width, MissingByte where one of them
is not there (spec/30_encoding.md R65). -/
def Obligations.AccumulatorAddressField : Prop :=
  ∀ (input : List Byte) (cur : Nat) (b : Byte), input[cur]? = some b →
    (b = 0xA0 ∨ b = 0xA2 →
      match input[cur + 1]? with
      | some lo => ∃ r, decodeOne input cur = (.instr r, cur + 2) ∧ r.addr.toNat = lo.toNat
      | none => decodeOne input cur = (.err .missingByte, cur + 1)) ∧
    (b = 0xA1 ∨ b = 0xA3 →
      match input[cur + 1]?, input[cur + 2]? with
      | some lo, some hi => ∃ r, decodeOne input cur = (.instr r, cur + 3) ∧ r.addr.toNat = lo.toNat + 256 * hi.toNat
      | some _, none => decodeOne input cur = (.err .missingByte, cur + 2)
      | none, _ => decodeOne input cur = (.err .missingByte, cur + 1))

/-- The immediate data of both rows that have it: one byte at byte width, two little-endian at word width, after all
other fields; MissingByte where one of them is not there (spec/30_encoding.md R66). `first` is everything of the
instruction before its data. -/
def Obligations.ImmediateDataField : Prop :=
  ∀ (before first rest : List Byte) (w : Bool),
    ((∃ reg : RegCode, first = [0b1011#4 ++ bit w ++ reg]) ∨
      ∃ (reg : RegCode) (rm : Rm), rm.wellFormed = true ∧ first = (0b1100011#7 ++ bit w) :: modRmBytes reg rm) →
    let input := before ++ first ++ rest
    let cur := before.length
    let data := cur + first.length
    (w = false →
      match rest with
      | lo :: _ => ∃ r, decodeOne input cur = (.instr r, data + 1) ∧ r.data.toNat = lo.toNat
      | [] => decodeOne input cur = (.err .missingByte, data)) ∧
    (w = true →
      match rest with
      | lo :: hi :: _ => ∃ r, decodeOne input cur = (.instr r, data + 2) ∧ r.data.toNat = lo.toNat + 256 * hi.toNat
      | [_] => decodeOne input cur = (.err .missingByte, data + 1)
      | [] => decodeOne input cur = (.err .missingByte, data))

/-- The record is fresh at every decode: it starts from the zero values, and every field the decode does not write
keeps them (spec/70_reset_and_hazards.md R140). -/
def Obligations.FreshRecord : Prop :=
  Record.zero =
      { op := .unknown
        flags :=
          { d := false, wlow := false, w3 := false, modrm := false, regmodrm := false, regop := false
            regdirect := false, imm := false, acc := false }
        rev := false, word := false, ea := false, direct := false, mod := 0, reg := 0, rm := 0, disp := 0, addr := 0
        data := 0, dst := none, src := none, len := 0 } ∧
    ∀ (input : List Byte) (cur c : Nat) (r : Record), decodeOne input cur = (.instr r, c) →
      (r.flags.modrm = false → r.mod = 0 ∧ r.rm = 0 ∧ r.ea = false ∧ r.direct = false ∧ r.disp = 0) ∧
      (r.flags.modrm = false → r.flags.regop = false → r.flags.regdirect = false → r.reg = 0) ∧
      (r.flags.modrm = true → r.direct = false → r.mod ≠ 1 → r.mod ≠ 2 → r.disp = 0) ∧
      (r.flags.acc = false → r.addr = 0) ∧ (r.flags.imm = false → r.data = 0) ∧
      (r.flags.d = false → r.rev = false) ∧ (r.flags.wlow = false → r.flags.w3 = false → r.word = false) ∧
      r.dst = none ∧ r.src = none

/-- Derived: a decoded record's operation is never Unknown, a direct address is also an effective address, no record
has both width flags or the flag no row sets, and its length is the advance of the cursor (spec/10_state.md sections 2
and 3, the spec's derivation and its decisions D13 and D22). -/
def Obligations.DecodedRecordShape : Prop :=
  ∀ (input : List Byte) (cur c : Nat) (r : Record), decodeOne input cur = (.instr r, c) →
    r.op ≠ .unknown ∧ (r.direct = true → r.ea = true) ∧ ¬(r.flags.wlow = true ∧ r.flags.w3 = true) ∧
      r.flags.regmodrm = false ∧ c = cur + r.len ∧ c ≤ input.length ∧ 1 ≤ r.len ∧ r.len ≤ 6

/-- Derived: a DecodeOne transaction called by itself changes the record and the cursor and nothing else, and the
driver's turn is that transaction followed by the line of its record, after which the record is dropped; on an error or
the end of the stream the turn leaves the same record and cursor (spec/43_translation_driver.md and
spec/30_encoding.md section 6; that a refused record stays is log entry 5, that the zero record stands for none is
log entry 6, the setting is log entry 7). -/
def Obligations.TurnIsDecodeThenPrint : Prop :=
  ∀ s : State, s.AtDecode →
    let d := callDecodeOne s
    (d.2.out = s.out ∧ d.2.status = s.status ∧ d.2.input = s.input ∧ d.2.pushPop = s.pushPop) ∧
    step s = .next
      (match d.1 with
      | .endOfStream => { d.2 with status := .done }
      | .err k => { d.2 with status := .failed k }
      | .instr r =>
        if r.op = .move then { d.2 with record := Record.zero, out := s.out ++ render r }
        else
          match pushPopRender s.pushPop (resolve r) with
          | none => { d.2 with record := resolve r, status := .refused }
          | some t => { d.2 with record := Record.zero, out := s.out ++ t })

/-! ## Texts -/

/-- Derived: `dec(n)` is a decimal numeral with no leading zeros and stands for n (spec/00_scope.md section 4 with the
spec's decision D9). -/
def Obligations.DecimalNumeral : Prop := ∀ n : Nat, IsNumber (dec n) ∧ numeralValue (dec n) = n

/-- Derived: the text of an effective address shows the stored displacement with an explicit sign and its magnitude,
-32768 included, and no number where it is zero (spec/40_operand_resolution_and_printing.md section 2 with the spec's
decisions D25 and D27). -/
def Obligations.DisplacementText : Prop :=
  ∀ (base : BaseName) (d : Word),
    (d.toNat = 0 → operandText (.effectiveAddress base d) = "[".toList ++ baseText base ++ "]".toList) ∧
    (0 < d.toNat → d.toNat < 32768 →
      operandText (.effectiveAddress base d) = "[".toList ++ baseText base ++ " +".toList ++ dec d.toNat ++ "]".toList) ∧
    (32768 ≤ d.toNat →
      operandText (.effectiveAddress base d) =
        "[".toList ++ baseText base ++ " -".toList ++ dec (65536 - d.toNat) ++ "]".toList)

/-- Derived: the register tables by width class: the codes 0 to 7 name al cl dl bl ah ch dh bh at byte width and
ax cx dx bx sp bp si di at word width, the base row and the segment row likewise (spec/10_state.md section 4; eighteen
names are the spec's general knowledge GK1, log entry 11; the order of the segment row is the spec's decision D29 and
its general knowledge GK2, log entry 12). -/
def Obligations.RegisterTables : Prop :=
  (List.range 8).map (fun c => regText (regW false (BitVec.ofNat 3 c))) =
      ["al".toList, "cl".toList, "dl".toList, "bl".toList, "ah".toList, "ch".toList, "dh".toList, "bh".toList] ∧
    (List.range 8).map (fun c => regText (regW true (BitVec.ofNat 3 c))) =
      ["ax".toList, "cx".toList, "dx".toList, "bx".toList, "sp".toList, "bp".toList, "si".toList, "di".toList] ∧
    (List.range 8).map (fun c => baseText (eaBase (BitVec.ofNat 3 c))) =
      ["bx+si".toList, "bx+di".toList, "bp+si".toList, "bp+di".toList, "si".toList, "di".toList, "bp".toList,
        "bx".toList] ∧
    (List.range 4).map (fun c => segText (seg (BitVec.ofNat 2 c))) =
      ["es".toList, "cs".toList, "ss".toList, "ds".toList]

/-- Derived: every line that Render makes is a Move line of the grammar, and so is the printed line of every Move
instruction, under any setting (spec/40_operand_resolution_and_printing.md section 3, the grammar the spec derives). -/
def Obligations.MoveLineInGrammar : Prop :=
  (∀ r : Record, IsMoveLine (render r)) ∧
    ∀ (setting : PushPopSetting) (i : Instr) (r : Record) (t : Text), decodedRecord i = some r → r.op = .move →
      printedLine setting i = some t → IsMoveLine t

/-- Derived: a Move line is characters of the fixed alphabet, its only newline is its last character, and no space stands
before that (spec/20_memory.md section 3 and the printer's line-end rule, with the spec's decision D4). -/
def Obligations.LineCharacters : Prop :=
  ∀ r : Record, ∃ body : Text, render r = body ++ ['\n'] ∧ '\n' ∉ body ∧ body.getLast? ≠ some ' ' ∧
    ∀ c ∈ render r, c ∈ alphabet

/-- Derived: two different byte sequences give one line, by each of the three ways the spec names: a zero displacement,
the unchecked REG field, and the two encodings of an immediate move (spec/40_operand_resolution_and_printing.md section
3, the spec's derivation). -/
def Obligations.RenderNotInjective : Prop :=
  (∀ (d w : Bool) (reg c : RegCode), c ≠ 6 →
    (render (recordMovRmR d w reg (.mem c)) = render (recordMovRmR d w reg (.mem8 c 0)) ∧
      encode (.movRmR d w reg (.mem c)) ≠ encode (.movRmR d w reg (.mem8 c 0))) ∧
      render (recordMovRmR d w reg (.mem c)) = render (recordMovRmR d w reg (.mem16 c 0)) ∧
        encode (.movRmR d w reg (.mem c)) ≠ encode (.movRmR d w reg (.mem16 c 0))) ∧
    (∀ (reg reg' : RegCode) (rm : Rm) (v : Sized), reg ≠ reg' →
      render (recordMovRmImm reg rm v) = render (recordMovRmImm reg' rm v) ∧
        encode (.movRmImm reg rm v) ≠ encode (.movRmImm reg' rm v)) ∧
    ∀ (reg c : RegCode) (v : Sized),
      render (recordMovRmImm reg (.reg c) v) = render (recordMovRImm c v) ∧
        encode (.movRmImm reg (.reg c) v) ≠ encode (.movRImm c v)

/-- Derived: a Push or Pop line, whatever the free value says, is one complete line: 7-bit ASCII, its one newline at
its end, no white space before that; and every complete line is the line of some text, so that none is shut out
(spec/20_memory.md section 3 and spec/40_operand_resolution_and_printing.md section 3, with the spec's decision D4; the
settings are log entry 7). -/
def Obligations.PushPopLineIsComplete : Prop :=
  (∀ (setting : PushPopSetting) (r : Record) (t : Text), pushPopRender setting r = some t → IsLine t) ∧
    ∀ t : Text, IsLine t → ∃ u, completeLine u = t

/-- Derived: OUT as bytes loses nothing: where OUT is nothing or the header and complete lines, its bytes read back
character by character are OUT (spec/20_memory.md section 3, the spec's decision D4, log entry 21). -/
def Obligations.OutAsAsciiBytes : Prop :=
  ∀ s : State, LinesInv s → (asciiBytes s.out).map (fun b => Char.ofNat b.toNat) = s.out

/-! ## Each instruction completes, with its result and its frame

Every conclusion is an equation of the whole next state: what it does not name is unchanged. The record an
instruction's line is made from is stated beside it (`decodedRecord` is what DecodeOne hands over, by
DecodeOneAgreesWithForms); after the line it is dropped, and the zero record stands for none (log entry 6). -/

/-- Derived: MOV register/memory to or from register (spec/41_move.md, first form; slots by the spec's decision D7; the
record after the line is log entry 6). -/
def Obligations.MovRmRPrintsLine : Prop :=
  ∀ (d w : Bool) (reg : RegCode) (rm : Rm) (s : State), rm.wellFormed = true →
    (decodedRecord (.movRmR d w reg rm)).map resolve = some
        { op := .move, flags := { d := true, wlow := true, modrm := true }, rev := d, word := w
          ea := rmIsMemory rm, direct := rmIsDirect rm, mod := rm.mod, reg := reg, rm := rm.code, disp := rm.disp
          dst := some (rmOperand w rm), src := some (.register (regW w reg)), len := 2 + rm.extraBytes.length } ∧
      exec (.movRmR d w reg rm) s = .next
        { s with
          record := Record.zero
          cur := s.cur + 2 + rm.extraBytes.length
          out := s.out ++
            (if d then
              "mov ".toList ++ regText (regW w reg) ++ ", ".toList ++ operandText (rmOperand w rm) ++ "\n".toList
            else
              "mov ".toList ++ operandText (rmOperand w rm) ++ ", ".toList ++ regText (regW w reg) ++ "\n".toList) }

/-- Derived: MOV immediate to register/memory; a zero immediate prints the keyword alone, REG is stored and not printed
(spec/41_move.md, second form; decisions D7 and D9 of the spec; the record after the line is log entry 6). -/
def Obligations.MovRmImmPrintsLine : Prop :=
  ∀ (reg : RegCode) (rm : Rm) (v : Sized) (s : State), rm.wellFormed = true →
    let kw := if v.isWord then "word".toList else "byte".toList
    (decodedRecord (.movRmImm reg rm v)).map resolve = some
        { op := .move, flags := { d := true, wlow := true, modrm := true, imm := true }, rev := true, word := v.isWord
          ea := rmIsMemory rm, direct := rmIsDirect rm, mod := rm.mod, reg := reg, rm := rm.code, disp := rm.disp
          data := v.value, dst := some (rmOperand v.isWord rm), src := some (.register (regW v.isWord reg))
          len := 2 + rm.extraBytes.length + v.bytes.length } ∧
      exec (.movRmImm reg rm v) s = .next
        { s with
          record := Record.zero
          cur := s.cur + 2 + rm.extraBytes.length + v.bytes.length
          out := s.out ++ "mov ".toList ++ operandText (rmOperand v.isWord rm) ++ ", ".toList ++
            (if v.value = 0 then kw else kw ++ " ".toList ++ dec v.value.toNat) ++ "\n".toList }

/-- Derived: MOV immediate to register; the destination slot is a filler that is suppressed (spec/41_move.md, third
form; decisions D7 and D9 of the spec; the record after the line is log entry 6). -/
def Obligations.MovRImmPrintsLine : Prop :=
  ∀ (reg : RegCode) (v : Sized) (s : State),
    let kw := if v.isWord then "word".toList else "byte".toList
    (decodedRecord (.movRImm reg v)).map resolve = some
        { op := .move, flags := { w3 := true, regop := true, imm := true }, word := v.isWord, reg := reg
          data := v.value, dst := some (.register (regW v.isWord 0)), src := some (.register (regW v.isWord reg))
          len := 1 + v.bytes.length } ∧
      exec (.movRImm reg v) s = .next
        { s with
          record := Record.zero
          cur := s.cur + 1 + v.bytes.length
          out := s.out ++ "mov ".toList ++ regText (regW v.isWord reg) ++ ", ".toList ++
            (if v.value = 0 then kw else kw ++ " ".toList ++ dec v.value.toNat) ++ "\n".toList }

/-- Derived: the two accumulator forms: the accumulator first for 0xA0 and 0xA1, the address first for 0xA2 and 0xA3;
a zero address prints `[0]` (spec/41_move.md, fourth and fifth forms; decision D8 of the spec, log entry 14; the record
after the line is log entry 6). -/
def Obligations.AccumulatorMovesPrintLine : Prop :=
  ∀ (a : Sized) (s : State),
    let acc := if a.isWord then "ax".toList else "al".toList
    let record : Record :=
      { op := .move, flags := { d := true, wlow := true, acc := true }, word := a.isWord, addr := a.value
        dst := some (.register (if a.isWord then .ax else .al)), src := some (.accumulatorAddress a.value)
        len := 1 + a.bytes.length }
    ((decodedRecord (.movAccMem a)).map resolve = some record ∧
      exec (.movAccMem a) s = .next
        { s with
          record := Record.zero
          cur := s.cur + 1 + a.bytes.length
          out := s.out ++ "mov ".toList ++ acc ++ ", [".toList ++ dec a.value.toNat ++ "]\n".toList }) ∧
      (decodedRecord (.movMemAcc a)).map resolve = some { record with rev := true } ∧
        exec (.movMemAcc a) s = .next
          { s with
            record := Record.zero
            cur := s.cur + 1 + a.bytes.length
            out := s.out ++ "mov [".toList ++ dec a.value.toNat ++ "], ".toList ++ acc ++ "\n".toList }

/-- Derived: both segment-register moves take the error Unimplemented: the opcode byte alone is consumed, no line, no
record, the pass failed (spec/41_move.md, last form; the cursor after a failure is the spec's decision D17; that the
zero record stands for no record is the model's reading, log entry 6). -/
def Obligations.SegmentMovesFail : Prop :=
  ∀ s : State,
    exec .movSrRm s =
        .next { s with record := Record.zero, cur := s.cur + 1, status := .failed .unimplemented } ∧
      exec .movRmSr s =
        .next { s with record := Record.zero, cur := s.cur + 1, status := .failed .unimplemented }

/-- Derived: the six push and pop shapes complete where PUSHPOP_RENDER gives lines: the record handed over (no width,
direction, immediate or accumulator flag; REG, the register code or the segment field stored unchecked) has its slots as
computed, of which the spec vouches for nothing; the cursor stands after the instruction, the record's line (a free
value made one complete line) is emitted, and the pass goes on (spec/42_push_pop.md; decision D14 of the spec for the
segment field; the record after the line is log entry 6, the setting is the model's choice, log entry 7). -/
def Obligations.PushPopPrintsLine : Prop :=
  ∀ (reg : RegCode) (rm : Rm) (s : State), rm.wellFormed = true → s.pushPop = .line →
    let shape (op : Op) : Record :=
      { op := op, flags := { modrm := true }, ea := rmIsMemory rm, direct := rmIsDirect rm, mod := rm.mod, reg := reg
        rm := rm.code, disp := rm.disp, dst := some (rmOperand false rm), src := some (.register (reg8 reg))
        len := 2 + rm.extraBytes.length }
    let single (op : Op) (f : LayoutFlags) : Record :=
      { op := op, flags := f, reg := reg, dst := some (.register .al), src := some (.register (reg8 reg)), len := 1 }
    let prints (i : Instr) (r : Record) : Prop :=
      (decodedRecord i).map resolve = some r ∧
        exec i s = .next
          { s with record := Record.zero, cur := s.cur + r.len, out := s.out ++ completeLine (Config.pushPopText r) }
    prints (.pushRm reg rm) (shape .push) ∧ prints (.pushR reg) (single .push { regop := true }) ∧
      prints (.pushSr reg) (single .push { regdirect := true }) ∧ prints (.popRm reg rm) (shape .pop) ∧
      prints (.popR reg) (single .pop { regop := true }) ∧ prints (.popSr reg) (single .pop { regdirect := true })

/-- Derived: with PUSHPOP_RENDER at the default of the spec, a push or pop shape ends the pass as Refused: no line, the
cursor after the instruction, its record handed over; and a renderer that decides record by record does the one or the
other (spec/40_operand_resolution_and_printing.md section 3, the spec's decision D11; that a refused record stays is
log entry 5, the record after a line log entry 6, the settings and the record-by-record choice log entry 7). -/
def Obligations.PushPopDefaultRefuses : Prop :=
  ∀ (i : Instr) (r : Record) (s : State), decodedRecord i = some r → r.op ≠ .move →
    let refused : State :=
      { s with record := resolve r, cur := s.cur + (encode i).length, status := .refused }
    let printed : State :=
      { s with record := Record.zero, cur := s.cur + (encode i).length
               out := s.out ++ completeLine (Config.pushPopText (resolve r)) }
    (s.pushPop = .refuse → exec i s = .next refused) ∧
      (s.pushPop = .perRecord →
        exec i s = .next (if Config.pushPopDeclines (resolve r) then refused else printed))

/-- Derived: the segment code of the two segment-register shapes is the low two bits of the stored field, and the
opcode byte carries the field in bits 5 to 3 (spec/30_encoding.md section 3, the spec's decision D14). -/
def Obligations.SegmentCodeOfShape : Prop :=
  ∀ code : RegCode,
    (segmentCode (recordPushSr code)).toNat = code.toNat % 4 ∧
      (segmentCode (recordPopSr code)).toNat = code.toNat % 4 ∧
      (encode (.pushSr code)).map BitVec.toNat = [8 * code.toNat + 6] ∧
      (encode (.popSr code)).map BitVec.toNat = [8 * code.toNat + 7]

/-- Derived: the frame of every instruction, from exec alone: the byte source and the setting never change, the cursor
advances by exactly the instruction's own bytes, OUT only grows. A Move keeps the status and drops its record; a Push or
Pop does the same, or ends the pass as Refused with OUT kept and its record left; a segment move keeps OUT
(spec/10_state.md sections 3 and 5, spec/20_memory.md sections 2 and 5; a refused record that stays is log entry 5, the
zero record for none log entry 6). -/
def Obligations.InstructionFrame : Prop :=
  ∀ (i : Instr) (s t : State), exec i s = .next t →
    t.input = s.input ∧ t.pushPop = s.pushPop ∧ t.cur = s.cur + (encode i).length ∧ s.out <+: t.out ∧
      (∀ r, decodedRecord i = some r →
        (t.status = s.status ∧ t.record = Record.zero) ∨
          (r.op ≠ .move ∧ t.status = .refused ∧ t.record = resolve r ∧ t.out = s.out)) ∧
      (decodedRecord i = none → t.out = s.out ∧ t.record = Record.zero ∧ t.status = .failed .unimplemented)

/-! ## The driver -/

/-- A step runs the decoded instruction: at the top of the driver's loop, where the bytes at the cursor decode to an
instruction, it is well-formed and the step is its meaning at that same state. Nothing is added around it: the meaning
itself moves the cursor past the instruction. -/
def Obligations.StepRunsDecoded : Prop :=
  ∀ (s : State) (i : Instr) (rest : List Byte), s.AtDecode → decode (s.input.drop s.cur) = .instr i rest →
    i.wellFormed = true ∧ step s = exec i s

/-- Derived: an instruction placed where the driver reads next is the one the next step runs (the model's own
operation, log entry 9). -/
def Obligations.PlacedWordRuns : Prop :=
  ∀ (s : State) (nbits w : Nat) (i : Instr), decodeTableWord nbits w = some i →
    step (s.withFetchWord nbits w) = exec i (s.withFetchWord nbits w) ∧
      (s.withFetchWord nbits w).cur = s.cur ∧ (s.withFetchWord nbits w).pushPop = s.pushPop

/-- Derived: one decoded instruction gives exactly one complete line, emitted whole in the turn that decodes it, before
the next decode, and its record is dropped after that (spec/43_translation_driver.md, the success of a turn; the zero
record for a dropped one is log entry 6, the text of a Push or Pop line log entry 7). -/
def Obligations.OneLinePerInstruction : Prop :=
  ∀ (s : State) (i : Instr) (rest : List Byte) (l : Text), s.AtDecode →
    decode (s.input.drop s.cur) = .instr i rest → printedLine s.pushPop i = some l →
      IsLine l ∧
        step s = .next { s with record := Record.zero, cur := s.cur + (encode i).length, out := s.out ++ l }

/-- Derived: the first turn of a pass emits the nine characters of the header and reads no byte, whatever the source
holds (spec/43_translation_driver.md, the header; the spec's decision D26, log entries 3 and 23). -/
def Obligations.HeaderBeforeAnyByte : Prop :=
  ∀ s : State, s.status = .running → s.out = [] → step s = .next { s with out := "bits 16\n\n".toList }

/-- The clean end: EOS at the opcode position stops the pass as Done and changes neither text nor cursor; it is the
only way to Done, and then every byte of the source has been consumed and OUT is the header and one line for each
instruction of the source (spec/43_translation_driver.md R116). -/
def Obligations.CleanEnd : Prop :=
  (∀ s : State, s.AtDecode → s.cur = s.input.length →
    ∃ t : State, step s = .next t ∧ t.status = .done ∧ t.cur = s.cur ∧ t.out = s.out) ∧
  ∀ s t : State, PassInv s → s.status = .running → step s = .next t → t.status = .done →
    s.cur = s.input.length ∧ t.cur = t.input.length ∧
      ∃ (is : List Instr) (lines : List Text), (∀ i ∈ is, i.wellFormed = true) ∧
        t.input = (is.map encode).flatten ∧ is.map (printedLine t.pushPop) = lines.map some ∧
        t.out = header ++ lines.flatten

/-- An error of classification or extraction stops the pass and is its status: no line for the failing instruction, the
earlier text kept, and the loop does not go on: after any number of further steps, if the machine takes them, status
and text are still these (spec/43_translation_driver.md R117). -/
def Obligations.FailureStopsPass : Prop :=
  ∀ (s : State) (k : ErrorKind) (c : Nat), s.AtDecode → decodeOne s.input s.cur = (.err k, c) →
    ∃ t : State, step s = .next t ∧ t.status = .failed k ∧ t.out = s.out ∧
      ∀ n, (runSteps n t).status = .failed k ∧ (runSteps n t).out = s.out

/-- Derived: the whole state that the end of a pass leaves: nothing but the status at a clean end; the cursor where
DecodeOne left it and the status at a failure; and in both no record, for which the zero record stands
(spec/43_translation_driver.md, spec/60_exceptions.md section 3; the cursor after a failure is the spec's decision D17,
the zero record log entry 6). -/
def Obligations.EndOfPassState : Prop :=
  (∀ s : State, s.AtDecode → s.cur = s.input.length →
    step s = .next { s with record := Record.zero, status := .done }) ∧
  ∀ (s : State) (k : ErrorKind) (c : Nat), s.AtDecode → decodeOne s.input s.cur = (.err k, c) →
    step s = .next { s with record := Record.zero, cur := c, status := .failed k }

/-- No operation resumes a failed pass: it stays Failed(K), with no recovery, no byte skipped and no further text; a
new pass begins from reset on whatever source the caller supplies (spec/60_exceptions.md R133). -/
def Obligations.NoReturnFromTheEnd : Prop :=
  (∀ (s : State) (k : ErrorKind) (n : Nat), s.status = .failed k →
    (runSteps n s).status = .failed k ∧ (runSteps n s).cur = s.cur ∧ (runSteps n s).out = s.out) ∧
    ∀ (input : List Byte) (setting : PushPopSetting),
      let t := startPass input setting
      t.input = input ∧ t.record = State.reset.record ∧ t.cur = State.reset.cur ∧ t.out = State.reset.out ∧
        t.status = State.reset.status

/-- Derived: a pass that is over, Done, Failed or Refused, takes steps that change nothing at all, and a new pass is the
reset state with the caller's source and setting (spec/10_state.md section 5 and spec/60_exceptions.md section 3; that
a step is answered at all after the end is log entry 4, the setting log entry 7). -/
def Obligations.TerminalStateStays : Prop :=
  (∀ (s : State) (n : Nat), s.status.terminal = true → runSteps n s = s) ∧
    ∀ (input : List Byte) (setting : PushPopSetting),
      startPass input setting = { State.reset with input := input, pushPop := setting }

/-- Derived: every step, over any state: the source and the setting stay, the cursor never goes back, and OUT is only
appended to (spec/10_state.md sections 3 and 5, spec/20_memory.md sections 2 and 5). -/
def Obligations.StepOnlyAppends : Prop :=
  ∀ s : State, ∃ t : State, step s = .next t ∧ t.input = s.input ∧ t.pushPop = s.pushPop ∧ s.cur ≤ t.cur ∧
    t.cur ≤ s.cur + (s.input.length - s.cur) ∧ s.out <+: t.out

/-- DecodeOne is a function of the source and the cursor, and a turn reads nothing an earlier instruction left: two
states that agree on source, cursor and setting take turns with the same record, cursor, status and appended text,
whatever their records and texts (spec/30_encoding.md R75, spec/70_reset_and_hazards.md R148). -/
def Obligations.NoStaleState : Prop :=
  ∀ s t : State, s.input = t.input → s.cur = t.cur →
    (callDecodeOne s).1 = (callDecodeOne t).1 ∧ (callDecodeOne s).2.record = (callDecodeOne t).2.record ∧
      (callDecodeOne s).2.cur = (callDecodeOne t).2.cur ∧
      (s.AtDecode → t.AtDecode → s.pushPop = t.pushPop →
        ∃ (record : Record) (cur : Nat) (status : Status) (line : Text),
          step s = .next { s with record := record, cur := cur, status := status, out := s.out ++ line } ∧
            step t = .next { t with record := record, cur := cur, status := status, out := t.out ++ line })

/-- Derived: no look-ahead: unless the turn found the end of the source, the bytes from its final cursor on have no
part in it (spec/20_memory.md section 2, spec/30_encoding.md section 3). -/
def Obligations.NoLookAhead : Prop :=
  ∀ s t : State, s.AtDecode → s.cur ≤ s.input.length → step s = .next t → t.status ≠ .done →
    t.status ≠ .failed .missingByte → ∀ tail : List Byte,
      step { s with input := s.input.take t.cur ++ tail } = .next { t with input := s.input.take t.cur ++ tail }

/-! ## Whole passes -/

/-- Derived: every step keeps the invariant of a pass: what has been consumed is the encodings of instructions, one
after another, what has been printed is the header and one line for each of them in order, and what follows them by
status is nothing, a failing byte, a truncated instruction or a refused one (spec/10_state.md section 5,
spec/20_memory.md section 5, spec/60_exceptions.md section 3). -/
def Obligations.StepKeepsPassInvariant : Prop := ∀ s t : State, PassInv s → step s = .next t → PassInv t

/-- Derived: the invariant of a pass holds at reset and at the start of every pass. -/
def Obligations.PassInvariantAtStart : Prop :=
  PassInv State.reset ∧ ∀ (input : List Byte) (setting : PushPopSetting), PassInv (startPass input setting)

/-- Derived: under any setting of PUSHPOP_RENDER every step keeps OUT nothing, or the header and complete lines
(spec/20_memory.md section 3; a Push or Pop line is a free value made one complete line, log entry 7). -/
def Obligations.StepKeepsWholeLines : Prop := ∀ s t : State, LinesInv s → step s = .next t → LinesInv t

/-- Derived: OUT is nothing at reset and at the start of every pass, so it is whole lines there. -/
def Obligations.WholeLinesAtStart : Prop :=
  LinesInv State.reset ∧ ∀ (input : List Byte) (setting : PushPopSetting), LinesInv (startPass input setting)

/-- Derived: under the default of PUSHPOP_RENDER every step keeps OUT the header and whole Move lines of the grammar
(spec/40_operand_resolution_and_printing.md section 3, the grammar the spec derives). -/
def Obligations.StepKeepsGrammar : Prop := ∀ s t : State, GrammarInv s → step s = .next t → GrammarInv t

/-- Derived: the grammar invariant holds at the start of every pass under the default of PUSHPOP_RENDER. -/
def Obligations.GrammarAtStart : Prop := ∀ input : List Byte, GrammarInv (startPass input .refuse)

/-- Derived: the machine's run is Translate: from the start of a pass over any source of N bytes, under any setting,
N + 2 steps reach the status, the cursor and the text that the spec's own loop over DecodeOne and Render returns
(spec/43_translation_driver.md, the pseudocode of Translate). -/
def Obligations.RunIsTranslate : Prop :=
  ∀ (input : List Byte) (setting : PushPopSetting),
    passResult (runSteps (input.length + 2) (startPass input setting)) = translate input setting

/-- Derived: a pass over a finite source always ends, within N + 1 calls of DecodeOne, with its cursor inside the
source; Done says the whole source was consumed, and so does MissingByte (spec/43_translation_driver.md, the spec's
derivation of termination; spec/60_exceptions.md section 3). -/
def Obligations.TranslateEnds : Prop :=
  ∀ (input : List Byte) (setting : PushPopSetting),
    let p := translate input setting
    p.status.terminal = true ∧ p.cur ≤ input.length ∧ header <+: p.out ∧
      (p.status = .done ∨ p.status = .failed .missingByte → p.cur = input.length)

/-- Two passes over an empty source: each yields the header and a clean end, and nothing of the first is in the
second (spec/43_translation_driver.md R120). -/
def Obligations.EmptyInputTwice : Prop :=
  ∀ setting : PushPopSetting,
    let first := runSteps 2 (startPass [] setting)
    let second := runSteps 2 (startPass first.input setting)
    first.status = .done ∧ first.out = "bits 16\n\n".toList ∧ first.cur = 0 ∧
      second.status = .done ∧ second.out = "bits 16\n\n".toList ∧ second.cur = 0

/-- Derived: the state at the start of a pass: cursor 0, no text, running, the zero record
(spec/70_reset_and_hazards.md section 1, the spec's decision D21; that the source is empty until the caller gives one
and that Push and Pop print at reset are the model's choices, log entries 2 and 7, and not part of this statement). -/
def Obligations.ResetState : Prop :=
  State.reset.cur = 0 ∧ State.reset.out = [] ∧ State.reset.status = .running ∧ State.reset.record = Record.zero

/-- Derived: the numbers of the outcomes are 0 for Done, 1, 2, 3 for the three kinds, and the merged signal of the
original program sends Unimplemented to Unknown and keeps everything else (spec/60_exceptions.md section 1, the spec's
decisions D16 and D23). -/
def Obligations.OutcomeNumbers : Prop :=
  statusCode .done = some 0 ∧ statusCode (.failed .unknown) = some 1 ∧ statusCode (.failed .unimplemented) = some 2 ∧
    statusCode (.failed .missingByte) = some 3 ∧
    ∀ st : Status, mergedStatus st = if st = .failed .unimplemented then .failed .unknown else st
end

