-- ==== Sys2Proof/Laws/Decode.lean ====
section
/-! SUPPORT. What the field readers do on the bytes the encoder writes, the number laws of the fields, and the rows
the encoder's opcode bytes match. -/

namespace Sys2Proof

/-! ## Number laws (R93) -/

/-- `le16(lo, hi) = hi * 256 + lo`. -/
theorem le16_toNat (lo hi : Byte) : (le16 lo hi).toNat = lo.toNat + 256 * hi.toNat := by
  have := lo.isLt
  simp only [le16, BitVec.toNat_append]
  rw [← Nat.shiftLeft_add_eq_or_of_lt (by simpa using this), Nat.shiftLeft_eq]
  omega

/-- A one-byte field keeps its value. -/
theorem zext16_toNat (v : Byte) : (zext16 v).toNat = v.toNat := by
  have := v.isLt
  simp only [zext16, BitVec.truncate_eq_setWidth, BitVec.toNat_setWidth]
  omega

/-- The sign-extended displacement has the value of its byte. -/
theorem sext16_toInt (d : Byte) : (sext16 d).toInt = d.toInt := by
  simp [sext16, BitVec.toInt_signExtend_of_le]

@[simp] theorem le16_lowByte_highByte (v : Word) : le16 (lowByte v) (highByte v) = v := by
  apply BitVec.eq_of_toNat_eq
  have := v.isLt
  rw [le16_toNat]
  simp only [lowByte, highByte, BitVec.extractLsb'_toNat, Nat.shiftRight_eq_div_pow]
  omega

@[simp] theorem lowByte_le16 (lo hi : Byte) : lowByte (le16 lo hi) = lo := by
  apply BitVec.eq_of_toNat_eq
  have := lo.isLt
  have := hi.isLt
  simp only [lowByte, BitVec.extractLsb'_toNat, Nat.shiftRight_eq_div_pow, le16_toNat]
  omega

@[simp] theorem highByte_le16 (lo hi : Byte) : highByte (le16 lo hi) = hi := by
  apply BitVec.eq_of_toNat_eq
  have := lo.isLt
  have := hi.isLt
  simp only [highByte, BitVec.extractLsb'_toNat, Nat.shiftRight_eq_div_pow, le16_toNat]
  omega

/-! ## The ModRM byte (R53) -/

/-- The three fields of a ModRM byte, and the byte they make: both directions of R53. -/
theorem modRmByte_fields : ∀ (mod : ModCode) (reg rm : RegCode),
    modField (modRmByte mod reg rm) = mod ∧ regField (modRmByte mod reg rm) = reg ∧
      rmField (modRmByte mod reg rm) = rm := by
  decide

@[simp] theorem modField_modRmByte (mod : ModCode) (reg rm : RegCode) : modField (modRmByte mod reg rm) = mod :=
  (modRmByte_fields mod reg rm).1

@[simp] theorem regField_modRmByte (mod : ModCode) (reg rm : RegCode) : regField (modRmByte mod reg rm) = reg :=
  (modRmByte_fields mod reg rm).2.1

@[simp] theorem rmField_modRmByte (mod : ModCode) (reg rm : RegCode) : rmField (modRmByte mod reg rm) = rm :=
  (modRmByte_fields mod reg rm).2.2

@[simp] theorem modRmByte_of_fields : ∀ m : Byte, modRmByte (modField m) (regField m) (rmField m) = m := by
  decide

/-! ## The field readers on the encoder's bytes -/

/-- The sized reader reads back what the encoder wrote. -/
@[simp] theorem takeSized_bytes (v : Sized) (rest : List Byte) :
    takeSized v.isWord (v.bytes ++ rest) = some (v, rest) := by
  cases v <;> simp [takeSized, Sized.isWord, Sized.bytes, takeByte, wordBytes, takeWord]

/-- The ModRM reader reads back what the encoder wrote, for a well-formed operand. -/
theorem takeModRm_bytes (reg : RegCode) (rm : Rm) (h : rm.wellFormed = true) (rest : List Byte) :
    takeModRm (modRmBytes reg rm ++ rest) = some ((reg, rm), rest) := by
  cases rm with
  | mem c =>
    have hc : c ≠ 6#3 := by simpa [Rm.wellFormed] using h
    simp [takeModRm, modRmBytes, takeByte, Rm.mod, Rm.code, Rm.extraBytes, takeRm, hc]
  | _ => simp [takeModRm, modRmBytes, takeByte, Rm.mod, Rm.code, Rm.extraBytes, takeRm, wordBytes, takeWord]

/-- What the sized reader took is the encoding of the field it gives. -/
theorem takeSized_some {w : Bool} {bs rest : List Byte} {v : Sized} (h : takeSized w bs = some (v, rest)) :
    v.isWord = w ∧ bs = v.bytes ++ rest := by
  cases w with
  | false =>
    cases bs with
    | nil => simp [takeSized, takeByte] at h
    | cons b bs =>
      obtain ⟨rfl, rfl⟩ : Sized.byte b = v ∧ bs = rest := by simpa [takeSized, takeByte] using h
      simp [Sized.isWord, Sized.bytes]
  | true =>
    rcases bs with _ | ⟨lo, _ | ⟨hi, bs⟩⟩
    · simp [takeSized, takeWord] at h
    · simp [takeSized, takeWord] at h
    · obtain ⟨rfl, rfl⟩ : Sized.word (le16 lo hi) = v ∧ bs = rest := by simpa [takeSized, takeWord] using h
      simp [Sized.isWord, Sized.bytes, wordBytes]

/-- What the ModRM reader took is the encoding of the operand it gives, which is well-formed. -/
theorem takeModRm_some {bs rest : List Byte} {reg : RegCode} {rm : Rm}
    (h : takeModRm bs = some ((reg, rm), rest)) : rm.wellFormed = true ∧ bs = modRmBytes reg rm ++ rest := by
  cases bs with
  | nil => simp [takeModRm, takeByte] at h
  | cons m bs =>
    have hm := modRmByte_of_fields m
    simp only [takeModRm, takeByte, Option.map_eq_some_iff, Prod.mk.injEq, Prod.exists] at h
    obtain ⟨rm', rest', hrm, ⟨rfl, rfl⟩, rfl⟩ := h
    unfold takeRm at hrm
    split at hrm
    · rename_i hc
      rcases bs with _ | ⟨lo, _ | ⟨hi, bs⟩⟩ <;> simp [takeWord] at hrm
      obtain ⟨rfl, rfl⟩ := hrm
      rw [hc.1, hc.2] at hm
      simp [Rm.wellFormed, modRmBytes, Rm.mod, Rm.code, Rm.extraBytes, wordBytes, hm]
    · rename_i hc
      split at hrm
      · rename_i h0
        obtain ⟨rfl, rfl⟩ : Rm.mem (rmField m) = rm' ∧ bs = rest' := by simpa using hrm
        rw [h0] at hm
        refine ⟨by simpa [Rm.wellFormed] using fun h6 => hc ⟨h0, h6⟩, ?_⟩
        simp [modRmBytes, Rm.mod, Rm.code, Rm.extraBytes, hm]
      · split at hrm
        · rename_i h1
          cases bs with
          | nil => simp [takeByte] at hrm
          | cons d bs =>
            obtain ⟨rfl, rfl⟩ : Rm.mem8 (rmField m) d = rm' ∧ bs = rest' := by simpa [takeByte] using hrm
            rw [h1] at hm
            simp [Rm.wellFormed, modRmBytes, Rm.mod, Rm.code, Rm.extraBytes, hm]
        · split at hrm
          · rename_i h2
            rcases bs with _ | ⟨lo, _ | ⟨hi, bs⟩⟩ <;> simp [takeWord] at hrm
            obtain ⟨rfl, rfl⟩ := hrm
            rw [h2] at hm
            simp [Rm.wellFormed, modRmBytes, Rm.mod, Rm.code, Rm.extraBytes, wordBytes, hm]
          · rename_i h0 h1 h2
            obtain ⟨rfl, rfl⟩ : Rm.reg (rmField m) = rm' ∧ bs = rest' := by simpa using hrm
            have h3 : modField m = 3#2 := by
              revert h0 h1 h2; generalize modField m = x; revert x; decide
            rw [h3] at hm
            simp [Rm.wellFormed, modRmBytes, Rm.mod, Rm.code, Rm.extraBytes, hm]

/-! ## The rows the encoder's opcode bytes match, and the fields those bytes carry -/

/-- MOV_RM_R: row 1, with d and w where R52 puts them. -/
theorem movRmR_opcode : ∀ d w : Bool,
    (classify (0b100010#6 ++ bit d ++ bit w)).map ClassRow.form = some .movRmR ∧
      dBit (0b100010#6 ++ bit d ++ bit w) = d ∧ wLowBit (0b100010#6 ++ bit d ++ bit w) = w := by
  decide

/-- MOV_RM_IMM: row 2, with w, and bit 1 set. -/
theorem movRmImm_opcode : ∀ w : Bool,
    (classify (0b1100011#7 ++ bit w)).map ClassRow.form = some .movRmImm ∧
      wLowBit (0b1100011#7 ++ bit w) = w ∧ dBit (0b1100011#7 ++ bit w) = true := by
  decide

/-- MOV_R_IMM: row 3, with w in bit 3 and the register code in bits 2 to 0. -/
theorem movRImm_opcode : ∀ (w : Bool) (reg : RegCode),
    (classify (0b1011#4 ++ bit w ++ reg)).map ClassRow.form = some .movRImm ∧
      w3Bit (0b1011#4 ++ bit w ++ reg) = w ∧ opcodeReg (0b1011#4 ++ bit w ++ reg) = reg := by
  decide

/-- MOV_ACC_MEM: row 4, with w, and bit 1 clear. -/
theorem movAccMem_opcode : ∀ w : Bool,
    (classify (0b1010000#7 ++ bit w)).map ClassRow.form = some .movAccMem ∧
      wLowBit (0b1010000#7 ++ bit w) = w ∧ dBit (0b1010000#7 ++ bit w) = false := by
  decide

/-- MOV_MEM_ACC: row 5, with w, and bit 1 set. -/
theorem movMemAcc_opcode : ∀ w : Bool,
    (classify (0b1010001#7 ++ bit w)).map ClassRow.form = some .movMemAcc ∧
      wLowBit (0b1010001#7 ++ bit w) = w ∧ dBit (0b1010001#7 ++ bit w) = true := by
  decide

/-- The register forms of push and pop: rows 8 and 11. -/
theorem pushR_popR_opcode : ∀ reg : RegCode,
    (classify (0b01010#5 ++ reg)).map ClassRow.form = some .pushR ∧ opcodeReg (0b01010#5 ++ reg) = reg ∧
      (classify (0b01011#5 ++ reg)).map ClassRow.form = some .popR ∧ opcodeReg (0b01011#5 ++ reg) = reg := by
  decide

/-- The segment forms of push and pop: rows 9 and 12, bit 5 free. -/
theorem pushSr_popSr_opcode : ∀ code : RegCode,
    (classify (0b00#2 ++ code ++ 0b110#3)).map ClassRow.form = some .pushSr ∧
      opcodeSeg (0b00#2 ++ code ++ 0b110#3) = code ∧
      (classify (0b00#2 ++ code ++ 0b111#3)).map ClassRow.form = some .popSr ∧
      opcodeSeg (0b00#2 ++ code ++ 0b111#3) = code := by
  decide

/-- The opcode byte of a form, rebuilt from the fields the decoder reads from `b`. -/
def rebuiltOpcode (b : Byte) : Form → Byte
  | .movRmR => 0b100010#6 ++ bit (dBit b) ++ bit (wLowBit b)
  | .movRmImm => 0b1100011#7 ++ bit (wLowBit b)
  | .movRImm => 0b1011#4 ++ bit (w3Bit b) ++ opcodeReg b
  | .movAccMem => 0b1010000#7 ++ bit (wLowBit b)
  | .movMemAcc => 0b1010001#7 ++ bit (wLowBit b)
  | .movSrRm => 0x8E#8
  | .movRmSr => 0x8C#8
  | .pushRm => 0xFF#8
  | .pushR => 0b01010#5 ++ opcodeReg b
  | .pushSr => 0b00#2 ++ opcodeSeg b ++ 0b110#3
  | .popRm => 0x8F#8
  | .popR => 0b01011#5 ++ opcodeReg b
  | .popSr => 0b00#2 ++ opcodeSeg b ++ 0b111#3

/-- Nothing of an opcode byte is dropped: it is rebuilt from its row and the fields read from it. -/
theorem rebuiltOpcode_of_row : ∀ b : Byte,
    (classify b).all (fun row => rebuiltOpcode b row.form == b) = true := by
  decide

/-! ## The decoder by the form of its first byte -/

/-- The decoder on a byte that matches a row of the form `f`. -/
theorem decode_of_form {b : Byte} {f : Form} (h : (classify b).map ClassRow.form = some f) (bs : List Byte) :
    decode (b :: bs) =
      match takeForm f b bs with
      | some (i, rest) => .instr i rest
      | none => .error .missingByte (bs.length + 1) := by
  obtain ⟨row, hr, rfl⟩ := Option.map_eq_some_iff.mp h
  simp only [decode, hr] <;> rfl

/-- The decoder on a byte that matches no row (R57). -/
theorem decode_of_no_row {b : Byte} (h : classify b = none) (bs : List Byte) :
    decode (b :: bs) = .error .unknown 1 := by
  simp [decode, h]

end Sys2Proof
end

