-- ==== Sys2Proof/Laws/State.lean ====
section
/-! SUPPORT. One lemma for each field of State under each operation of Ops.lean, so that no later proof unfolds a
record update. -/

namespace Sys2Proof.Machine

/-! ## emit -/

@[simp] theorem emit_record (t : Text) (s : State) :
    (emit t s).record = s.record := rfl

@[simp] theorem emit_cur (t : Text) (s : State) :
    (emit t s).cur = s.cur := rfl

@[simp] theorem emit_out (t : Text) (s : State) :
    (emit t s).out = s.out ++ t := rfl

@[simp] theorem emit_status (t : Text) (s : State) :
    (emit t s).status = s.status := rfl

@[simp] theorem emit_input (t : Text) (s : State) :
    (emit t s).input = s.input := rfl

@[simp] theorem emit_pushPop (t : Text) (s : State) :
    (emit t s).pushPop = s.pushPop := rfl

/-! ## emitHeader -/

@[simp] theorem emitHeader_record (s : State) :
    (emitHeader s).record = s.record := rfl

@[simp] theorem emitHeader_cur (s : State) :
    (emitHeader s).cur = s.cur := rfl

@[simp] theorem emitHeader_out (s : State) :
    (emitHeader s).out = s.out ++ header := rfl

@[simp] theorem emitHeader_status (s : State) :
    (emitHeader s).status = s.status := rfl

@[simp] theorem emitHeader_input (s : State) :
    (emitHeader s).input = s.input := rfl

@[simp] theorem emitHeader_pushPop (s : State) :
    (emitHeader s).pushPop = s.pushPop := rfl

/-! ## fail -/

@[simp] theorem fail_record (k : ErrorKind) (n : Nat) (s : State) :
    (fail k n s).record = Record.zero := rfl

@[simp] theorem fail_cur (k : ErrorKind) (n : Nat) (s : State) :
    (fail k n s).cur = s.cur + n := rfl

@[simp] theorem fail_out (k : ErrorKind) (n : Nat) (s : State) :
    (fail k n s).out = s.out := rfl

@[simp] theorem fail_status (k : ErrorKind) (n : Nat) (s : State) :
    (fail k n s).status = .failed k := rfl

@[simp] theorem fail_input (k : ErrorKind) (n : Nat) (s : State) :
    (fail k n s).input = s.input := rfl

@[simp] theorem fail_pushPop (k : ErrorKind) (n : Nat) (s : State) :
    (fail k n s).pushPop = s.pushPop := rfl

/-! ## endPass -/

@[simp] theorem endPass_record (s : State) :
    (endPass s).record = Record.zero := rfl

@[simp] theorem endPass_cur (s : State) :
    (endPass s).cur = s.cur := rfl

@[simp] theorem endPass_out (s : State) :
    (endPass s).out = s.out := rfl

@[simp] theorem endPass_status (s : State) :
    (endPass s).status = .done := rfl

@[simp] theorem endPass_input (s : State) :
    (endPass s).input = s.input := rfl

@[simp] theorem endPass_pushPop (s : State) :
    (endPass s).pushPop = s.pushPop := rfl

/-! ## refusePass -/

@[simp] theorem refusePass_record (s : State) :
    (refusePass s).record = s.record := rfl

@[simp] theorem refusePass_cur (s : State) :
    (refusePass s).cur = s.cur := rfl

@[simp] theorem refusePass_out (s : State) :
    (refusePass s).out = s.out := rfl

@[simp] theorem refusePass_status (s : State) :
    (refusePass s).status = .refused := rfl

@[simp] theorem refusePass_input (s : State) :
    (refusePass s).input = s.input := rfl

@[simp] theorem refusePass_pushPop (s : State) :
    (refusePass s).pushPop = s.pushPop := rfl

/-! ## advance -/

@[simp] theorem advance_record (r : Record) (s : State) :
    (advance r s).record = resolve r := rfl

@[simp] theorem advance_cur (r : Record) (s : State) :
    (advance r s).cur = s.cur + r.len := rfl

@[simp] theorem advance_out (r : Record) (s : State) :
    (advance r s).out = s.out := rfl

@[simp] theorem advance_status (r : Record) (s : State) :
    (advance r s).status = s.status := rfl

@[simp] theorem advance_input (r : Record) (s : State) :
    (advance r s).input = s.input := rfl

@[simp] theorem advance_pushPop (r : Record) (s : State) :
    (advance r s).pushPop = s.pushPop := rfl

/-! ## dropRecord -/

@[simp] theorem dropRecord_record (s : State) :
    (dropRecord s).record = Record.zero := rfl

@[simp] theorem dropRecord_cur (s : State) :
    (dropRecord s).cur = s.cur := rfl

@[simp] theorem dropRecord_out (s : State) :
    (dropRecord s).out = s.out := rfl

@[simp] theorem dropRecord_status (s : State) :
    (dropRecord s).status = s.status := rfl

@[simp] theorem dropRecord_input (s : State) :
    (dropRecord s).input = s.input := rfl

@[simp] theorem dropRecord_pushPop (s : State) :
    (dropRecord s).pushPop = s.pushPop := rfl

/-! ## emitLine -/

@[simp] theorem emitLine_record (line : Text) (s : State) :
    (emitLine line s).record = Record.zero := rfl

@[simp] theorem emitLine_cur (line : Text) (s : State) :
    (emitLine line s).cur = s.cur := rfl

@[simp] theorem emitLine_out (line : Text) (s : State) :
    (emitLine line s).out = s.out ++ line := rfl

@[simp] theorem emitLine_status (line : Text) (s : State) :
    (emitLine line s).status = s.status := rfl

@[simp] theorem emitLine_input (line : Text) (s : State) :
    (emitLine line s).input = s.input := rfl

@[simp] theorem emitLine_pushPop (line : Text) (s : State) :
    (emitLine line s).pushPop = s.pushPop := rfl

/-! ## printMove -/

@[simp] theorem printMove_record (r : Record) (s : State) :
    (printMove r s).record = Record.zero := rfl

@[simp] theorem printMove_cur (r : Record) (s : State) :
    (printMove r s).cur = s.cur + r.len := rfl

@[simp] theorem printMove_out (r : Record) (s : State) :
    (printMove r s).out = s.out ++ render (resolve r) := rfl

@[simp] theorem printMove_status (r : Record) (s : State) :
    (printMove r s).status = s.status := rfl

@[simp] theorem printMove_input (r : Record) (s : State) :
    (printMove r s).input = s.input := rfl

@[simp] theorem printMove_pushPop (r : Record) (s : State) :
    (printMove r s).pushPop = s.pushPop := rfl

/-! ## placeBytes -/

@[simp] theorem placeBytes_record (bs : List Byte) (s : State) :
    (placeBytes bs s).record = s.record := rfl

@[simp] theorem placeBytes_cur (bs : List Byte) (s : State) :
    (placeBytes bs s).cur = s.cur := rfl

@[simp] theorem placeBytes_out (bs : List Byte) (s : State) :
    (placeBytes bs s).out = if s.out.isEmpty then header else s.out := rfl

@[simp] theorem placeBytes_status (bs : List Byte) (s : State) :
    (placeBytes bs s).status = .running := rfl

@[simp] theorem placeBytes_input (bs : List Byte) (s : State) :
    (placeBytes bs s).input = overlay s.input s.cur bs := rfl

@[simp] theorem placeBytes_pushPop (bs : List Byte) (s : State) :
    (placeBytes bs s).pushPop = s.pushPop := rfl

/-! ## startPass -/

@[simp] theorem startPass_record (input : List Byte) (setting : PushPopSetting) :
    (startPass input setting).record = Record.zero := rfl

@[simp] theorem startPass_cur (input : List Byte) (setting : PushPopSetting) :
    (startPass input setting).cur = 0 := rfl

@[simp] theorem startPass_out (input : List Byte) (setting : PushPopSetting) :
    (startPass input setting).out = [] := rfl

@[simp] theorem startPass_status (input : List Byte) (setting : PushPopSetting) :
    (startPass input setting).status = .running := rfl

@[simp] theorem startPass_input (input : List Byte) (setting : PushPopSetting) :
    (startPass input setting).input = input := rfl

@[simp] theorem startPass_pushPop (input : List Byte) (setting : PushPopSetting) :
    (startPass input setting).pushPop = setting := rfl

/-! ## The record's fields under the resolver and the ModRM helpers -/

@[simp] theorem resolve_op (r : Record) : (resolve r).op = r.op := rfl

@[simp] theorem resolve_flags (r : Record) : (resolve r).flags = r.flags := rfl

@[simp] theorem resolve_rev (r : Record) : (resolve r).rev = r.rev := rfl

@[simp] theorem resolve_word (r : Record) : (resolve r).word = r.word := rfl

@[simp] theorem resolve_ea (r : Record) : (resolve r).ea = r.ea := rfl

@[simp] theorem resolve_direct (r : Record) : (resolve r).direct = r.direct := rfl

@[simp] theorem resolve_mod (r : Record) : (resolve r).mod = r.mod := rfl

@[simp] theorem resolve_reg (r : Record) : (resolve r).reg = r.reg := rfl

@[simp] theorem resolve_rm (r : Record) : (resolve r).rm = r.rm := rfl

@[simp] theorem resolve_disp (r : Record) : (resolve r).disp = r.disp := rfl

@[simp] theorem resolve_addr (r : Record) : (resolve r).addr = r.addr := rfl

@[simp] theorem resolve_data (r : Record) : (resolve r).data = r.data := rfl

@[simp] theorem resolve_len (r : Record) : (resolve r).len = r.len := rfl

@[simp] theorem resolve_dst (r : Record) : (resolve r).dst = some (dstSlot r) := rfl

@[simp] theorem resolve_src (r : Record) : (resolve r).src = some (srcSlot r) := rfl

@[simp] theorem withModRm_op (r : Record) (reg : RegCode) (rm : Rm) :
    (withModRm r reg rm).op = r.op := rfl

@[simp] theorem withModRm_flags (r : Record) (reg : RegCode) (rm : Rm) :
    (withModRm r reg rm).flags = r.flags := rfl

@[simp] theorem withModRm_rev (r : Record) (reg : RegCode) (rm : Rm) :
    (withModRm r reg rm).rev = r.rev := rfl

@[simp] theorem withModRm_word (r : Record) (reg : RegCode) (rm : Rm) :
    (withModRm r reg rm).word = r.word := rfl

@[simp] theorem withModRm_addr (r : Record) (reg : RegCode) (rm : Rm) :
    (withModRm r reg rm).addr = r.addr := rfl

@[simp] theorem withModRm_data (r : Record) (reg : RegCode) (rm : Rm) :
    (withModRm r reg rm).data = r.data := rfl

@[simp] theorem withModRm_dst (r : Record) (reg : RegCode) (rm : Rm) :
    (withModRm r reg rm).dst = r.dst := rfl

@[simp] theorem withModRm_src (r : Record) (reg : RegCode) (rm : Rm) :
    (withModRm r reg rm).src = r.src := rfl

@[simp] theorem withModRm_len (r : Record) (reg : RegCode) (rm : Rm) :
    (withModRm r reg rm).len = r.len := rfl

@[simp] theorem withModRm_mod (r : Record) (reg : RegCode) (rm : Rm) :
    (withModRm r reg rm).mod = rm.mod := rfl

@[simp] theorem withModRm_reg (r : Record) (reg : RegCode) (rm : Rm) :
    (withModRm r reg rm).reg = reg := rfl

@[simp] theorem withModRm_rm (r : Record) (reg : RegCode) (rm : Rm) :
    (withModRm r reg rm).rm = rm.code := rfl

@[simp] theorem withModRm_disp (r : Record) (reg : RegCode) (rm : Rm) :
    (withModRm r reg rm).disp = rm.disp := rfl

@[simp] theorem withModRm_ea (r : Record) (reg : RegCode) (rm : Rm) :
    (withModRm r reg rm).ea = eaFlag rm.mod := rfl

@[simp] theorem withModRm_direct (r : Record) (reg : RegCode) (rm : Rm) :
    (withModRm r reg rm).direct = directFlag rm.mod rm.code := rfl

/-- The line does not depend on whether the slots are filled in. -/
@[simp] theorem render_resolve (r : Record) : render (resolve r) = render r := rfl

end Sys2Proof.Machine
end

