-- ==== Sys2Proof/Laws/Ops.lean ====
section
/-! SUPPORT. For each shared operation, one lemma that says everything it can do; the inversion of exec and of step. -/

namespace Sys2Proof.Machine

/-! ## The byte source and the sink -/

/-- A byte is delivered exactly where the cursor is inside the source, and then the cursor moves on by one (R37). -/
theorem nextByte_of_some {input : List Byte} {cur : Nat} {b : Byte} (h : input[cur]? = some b) :
    nextByte input cur = (some b, cur + 1) := by
  simp [nextByte, h]

/-- EOS changes nothing (R37). -/
theorem nextByte_of_none {input : List Byte} {cur : Nat} (h : input[cur]? = none) :
    nextByte input cur = (none, cur) := by
  simp [nextByte, h]

/-- The pending bytes where there is one: it and those after it. -/
theorem pendingBytes_of_some {s : State} {b : Byte} (h : s.input[s.cur]? = some b) :
    pendingBytes s = b :: s.input.drop (s.cur + 1) := by
  obtain ⟨hlt, rfl⟩ := List.getElem?_eq_some_iff.mp h
  exact List.drop_eq_getElem_cons hlt

/-- Emitting two texts is emitting their concatenation. -/
@[simp] theorem emit_emit (t u : Text) (s : State) : emit u (emit t s) = emit (t ++ u) s := by
  simp [emit]

/-! ## PUSHPOP_RENDER -/

/-- PUSHPOP_RENDER gives the record's line or refuses; nothing else (R95). -/
theorem pushPopRender_cases (setting : PushPopSetting) (r : Record) :
    pushPopRender setting r = none ∨ pushPopRender setting r = some (pushPopLine r) := by
  cases setting with
  | refuse => exact .inl rfl
  | line => exact .inr rfl
  | perRecord => by_cases h : Config.pushPopDeclines r = true <;> simp [pushPopRender, h]

/-- A push or pop either ends the pass as Refused or emits the line PUSHPOP_RENDER gives and drops its record, after
the same advance. -/
theorem printPushPop_cases (r : Record) (s : State) :
    (pushPopRender s.pushPop (resolve r) = none ∧ printPushPop r s = refusePass (advance r s)) ∨
      ∃ t, pushPopRender s.pushPop (resolve r) = some t ∧ printPushPop r s = emitLine t (advance r s) := by
  cases h : pushPopRender s.pushPop (resolve r) with
  | none => exact .inl ⟨rfl, by simp [printPushPop, h]⟩
  | some t => exact .inr ⟨t, rfl, by simp [printPushPop, h]⟩

/-! ## The inversion of exec -/

/-- What a recognised instruction does: a Move prints, a Push or Pop asks PUSHPOP_RENDER, a segment-register move
fails; there is no other outcome (spec/43_translation_driver.md R114). -/
theorem exec_cases (i : Instr) (s : State) :
    (∃ r, decodedRecord i = some r ∧ r.op = .move ∧ exec i s = .next (printMove r s)) ∨
      (∃ r, decodedRecord i = some r ∧ r.op ≠ .move ∧ exec i s = .next (printPushPop r s)) ∨
      (decodedRecord i = none ∧ exec i s = .next (fail .unimplemented 1 s)) := by
  cases i with
  | movRmR d w reg rm => exact .inl ⟨_, rfl, rfl, rfl⟩
  | movRmImm reg rm data => exact .inl ⟨_, rfl, rfl, rfl⟩
  | movRImm reg data => exact .inl ⟨_, rfl, rfl, rfl⟩
  | movAccMem addr => exact .inl ⟨_, rfl, rfl, rfl⟩
  | movMemAcc addr => exact .inl ⟨_, rfl, rfl, rfl⟩
  | movSrRm => exact .inr (.inr ⟨rfl, rfl⟩)
  | movRmSr => exact .inr (.inr ⟨rfl, rfl⟩)
  | pushRm reg rm => exact .inr (.inl ⟨_, rfl, by simp [recordPushRm], rfl⟩)
  | pushR reg => exact .inr (.inl ⟨_, rfl, by simp [recordPushR], rfl⟩)
  | pushSr code => exact .inr (.inl ⟨_, rfl, by simp [recordPushSr], rfl⟩)
  | popRm reg rm => exact .inr (.inl ⟨_, rfl, by simp [recordPopRm], rfl⟩)
  | popR reg => exact .inr (.inl ⟨_, rfl, by simp [recordPopR], rfl⟩)
  | popSr code => exact .inr (.inl ⟨_, rfl, by simp [recordPopSr], rfl⟩)

/-! ## The inversion of the driver's turn and of step -/

/-- At the top of the loop the turn is what the decode of the pending bytes asks for. -/
theorem nextTurn_of_atDecode {s : State} (h : s.AtDecode) : nextTurn s = turnOf (decode (pendingBytes s)) := by
  obtain ⟨hs, ho⟩ := h
  unfold nextTurn
  rw [hs]
  cases hout : s.out with
  | nil => exact absurd hout ho
  | cons c t => rfl

/-- Before the header the turn is the header. -/
theorem nextTurn_of_no_text {s : State} (hs : s.status = .running) (ho : s.out = []) : nextTurn s = .header := by
  simp [nextTurn, hs, ho]

/-- A pass that is over has no turn. -/
theorem nextTurn_of_terminal {s : State} (h : s.status.terminal = true) : nextTurn s = .over := by
  unfold nextTurn
  cases hs : s.status <;> simp_all [Status.terminal]

/-- Everything a step can do, with the condition of each case (spec/43_translation_driver.md R114 to R118). -/
theorem step_cases (s : State) :
    (s.status.terminal = true ∧ step s = .next s) ∨
      (s.status = .running ∧ s.out = [] ∧ step s = .next (emitHeader s)) ∨
      (s.AtDecode ∧ decode (pendingBytes s) = .endOfStream ∧ step s = .next (endPass s)) ∨
      (∃ k n, s.AtDecode ∧ decode (pendingBytes s) = .error k n ∧ step s = .next (fail k n s)) ∨
      ∃ i rest, s.AtDecode ∧ decode (pendingBytes s) = .instr i rest ∧ step s = exec i s := by
  by_cases ht : s.status.terminal = true
  · exact .inl ⟨ht, by simp [step, nextTurn_of_terminal ht]⟩
  · have hs : s.status = .running := by
      cases h : s.status <;> simp_all [Status.terminal]
    by_cases ho : s.out = []
    · exact .inr (.inl ⟨hs, ho, by simp [step, nextTurn_of_no_text hs ho]⟩)
    · have ha : s.AtDecode := ⟨hs, ho⟩
      have hn := nextTurn_of_atDecode ha
      cases hd : decode (pendingBytes s) with
      | endOfStream => exact .inr (.inr (.inl ⟨ha, rfl, by simp [step, hn, hd, turnOf]⟩))
      | error k n => exact .inr (.inr (.inr (.inl ⟨k, n, ha, rfl, by simp [step, hn, hd, turnOf]⟩)))
      | instr i rest => exact .inr (.inr (.inr (.inr ⟨i, rest, ha, rfl, by simp [step, hn, hd, turnOf]⟩)))

/-- A step always gives a next state: the block has no fault, and no instruction is without a meaning. -/
theorem step_next (s : State) : ∃ t, step s = .next t := by
  rcases step_cases s with ⟨_, h⟩ | ⟨_, _, h⟩ | ⟨_, _, h⟩ | ⟨k, n, _, _, h⟩ | ⟨i, rest, _, _, h⟩
  · exact ⟨_, h⟩
  · exact ⟨_, h⟩
  · exact ⟨_, h⟩
  · exact ⟨_, h⟩
  · rcases exec_cases i s with ⟨r, _, _, he⟩ | ⟨r, _, _, he⟩ | ⟨_, he⟩ <;> exact ⟨_, h.trans he⟩

/-! ## Runs -/

/-- A run of one step more, where the step gives a next state. -/
theorem runSteps_succ_of_next {s t : State} (h : step s = .next t) (n : Nat) : runSteps (n + 1) s = runSteps n t := by
  simp [runSteps, h]

end Sys2Proof.Machine
end

