-- ==== Sys2Proof/Laws/PerInstr.lean ====
section
/-! SUPPORT. Facts about every instruction as syntax, one lemma for each constructor. -/

namespace Sys2Proof.Laws

/-- The size of an RM operand's bytes after the ModRM byte: at most two. -/
theorem extraBytes_length_le (rm : Rm) : rm.extraBytes.length ≤ 2 := by
  cases rm <;> simp [Rm.extraBytes, wordBytes]

/-- A sized field is one byte or two. -/
theorem sizedBytes_length (v : Sized) : 1 ≤ v.bytes.length ∧ v.bytes.length ≤ 2 := by
  cases v <;> simp [Sized.bytes, wordBytes]

/-! ## The record's length is the encoding's length (spec/10_state.md R25, spec/30_encoding.md R69) -/

/-- The record an instruction hands over has the length of the instruction's bytes. -/
def RecordLength.Statement (i : Instr) : Prop :=
  ∀ r, Machine.decodedRecord i = some r → r.len = (encode i).length

theorem RecordLength.movRmR (d w : Bool) (reg : RegCode) (rm : Rm) : RecordLength.Statement (.movRmR d w reg rm) := by
  rintro r ⟨⟩
  simp [Machine.recordMovRmR, Machine.withModRm, Machine.withCodes, encode, modRmBytes]; omega

theorem RecordLength.movRmImm (reg : RegCode) (rm : Rm) (data : Sized) :
    RecordLength.Statement (.movRmImm reg rm data) := by
  rintro r ⟨⟩
  simp [Machine.recordMovRmImm, Machine.withModRm, Machine.withCodes, encode, modRmBytes]; omega

theorem RecordLength.movRImm (reg : RegCode) (data : Sized) : RecordLength.Statement (.movRImm reg data) := by
  rintro r ⟨⟩
  simp [Machine.recordMovRImm, encode]; omega

theorem RecordLength.movAccMem (addr : Sized) : RecordLength.Statement (.movAccMem addr) := by
  rintro r ⟨⟩
  simp [Machine.recordMovAccMem, encode]; omega

theorem RecordLength.movMemAcc (addr : Sized) : RecordLength.Statement (.movMemAcc addr) := by
  rintro r ⟨⟩
  simp [Machine.recordMovMemAcc, encode]; omega

theorem RecordLength.movSrRm : RecordLength.Statement .movSrRm := by
  rintro r ⟨⟩

theorem RecordLength.movRmSr : RecordLength.Statement .movRmSr := by
  rintro r ⟨⟩

theorem RecordLength.pushRm (reg : RegCode) (rm : Rm) : RecordLength.Statement (.pushRm reg rm) := by
  rintro r ⟨⟩
  simp [Machine.recordPushRm, Machine.withModRm, Machine.withCodes, encode, modRmBytes]; omega

theorem RecordLength.pushR (reg : RegCode) : RecordLength.Statement (.pushR reg) := by
  rintro r ⟨⟩
  rfl

theorem RecordLength.pushSr (code : RegCode) : RecordLength.Statement (.pushSr code) := by
  rintro r ⟨⟩
  rfl

theorem RecordLength.popRm (reg : RegCode) (rm : Rm) : RecordLength.Statement (.popRm reg rm) := by
  rintro r ⟨⟩
  simp [Machine.recordPopRm, Machine.withModRm, Machine.withCodes, encode, modRmBytes]; omega

theorem RecordLength.popR (reg : RegCode) : RecordLength.Statement (.popR reg) := by
  rintro r ⟨⟩
  rfl

theorem RecordLength.popSr (code : RegCode) : RecordLength.Statement (.popSr code) := by
  rintro r ⟨⟩
  rfl

end Sys2Proof.Laws
end

