-- ==== Sys2Proof/Tests/Slice0.lean ====
section
/-! SUPPORT. Tests: well-formedness, decoding by words written out from spec/30_encoding.md, one step for each
instruction with the expected values of spec/95_test_vectors.md, and a witness for the hypotheses of every statement
that has some. -/

namespace Sys2Proof.Tests

open Sys2Proof Sys2Proof.Machine

/-- A pass over `bs` that has emitted its header and stands at its first decode. -/
def atDecode (bs : List Byte) (setting : PushPopSetting) : State := { startPass bs setting with out := header }

/-- That pass after one turn under the default of PUSHPOP_RENDER. -/
def turn (bs : List Byte) : State := runSteps 1 (atDecode bs .refuse)

/-- What that turn appended to OUT. -/
def line (bs : List Byte) : Text := (turn bs).out.drop 9

/-- The columns of the push and pop vectors: operation, MOD, REG, RM, EA, DIRECT, displacement, length. -/
def columns (r : Record) : Op × List Nat :=
  (r.op, [r.mod.toNat, r.reg.toNat, r.rm.toNat, r.ea.toNat, r.direct.toNat, r.disp.toNat, r.len])

/-! ## WellFormed refuses the ill-formed term of each check (MOD = 0 with RM = 6 is no base) -/

theorem test_wf_movRmR : (Instr.movRmR true true 0 (.mem 6)).wellFormed = false := by decide
theorem test_wf_movRmImm : (Instr.movRmImm 0 (.mem 6) (.byte 7)).wellFormed = false := by decide
theorem test_wf_pushRm : (Instr.pushRm 6 (.mem 6)).wellFormed = false := by decide
theorem test_wf_popRm : (Instr.popRm 0 (.mem 6)).wellFormed = false := by decide
theorem test_wf_neighbours :
    (Instr.movRmR true true 0 (.mem 7)).wellFormed = true ∧ (Instr.movRmR true true 0 (.mem8 6 0)).wellFormed = true ∧
      (Instr.movRmR true true 0 (.reg 6)).wellFormed = true := by decide

/-! ## Decoding, one word for each constructor, the patterns of R55 bit by bit -/

theorem test_decode_movRmR :
    decode [0b10001011, 0b01000001, 0b11011011] = .instr (.movRmR true true 0 (.mem8 1 0xDB)) [] := by decide
theorem test_decode_movRmImm :
    decode [0b11000111, 0b10000101, 0b10000101, 0b00000011, 0b01011011, 0b00000001] =
      .instr (.movRmImm 0 (.mem16 5 901) (.word 347)) [] := by decide
theorem test_decode_movRImm : decode [0b10110001, 0b00001100] = .instr (.movRImm 1 (.byte 12)) [] := by decide
theorem test_decode_movAccMem :
    decode [0b10100001, 0b10000010, 0b00001101] = .instr (.movAccMem (.word 3458)) [] := by decide
theorem test_decode_movMemAcc : decode [0b10100010, 0b00010000] = .instr (.movMemAcc (.byte 16)) [] := by decide
theorem test_decode_movSrRm : decode [0b10001110, 0xD8] = .instr .movSrRm [0xD8] := by decide
theorem test_decode_movRmSr : decode [0b10001100, 0xD8] = .instr .movRmSr [0xD8] := by decide
theorem test_decode_pushRm :
    decode [0b11111111, 0b00110110, 0b10000010, 0b00001101] = .instr (.pushRm 6 (.direct 3458)) [] := by decide
theorem test_decode_pushR : decode [0b01010111] = .instr (.pushR 7) [] := by decide
theorem test_decode_pushSr : decode [0b00011110] = .instr (.pushSr 3) [] := by decide
theorem test_decode_popRm : decode [0b10001111, 0b11000001] = .instr (.popRm 0 (.reg 1)) [] := by decide
theorem test_decode_popR : decode [0b01011011] = .instr (.popR 3) [] := by decide
theorem test_decode_popSr : decode [0b00111111] = .instr (.popSr 7) [] := by decide
theorem test_decode_rejects :
    decode [0x90] = .error .unknown 1 ∧ decode [0x46] = .error .unknown 1 ∧ decode [0x8B] = .error .missingByte 1 ∧
      decode [0xC7, 0x06, 0x82, 0x0D, 0x34] = .error .missingByte 5 ∧ decode [] = .endOfStream := by decide
theorem test_decodeTableWord :
    decodeTableWord 8 0x88 = some (.movRmR false false 0 (.mem 0)) ∧
      decodeTableWord 16 0xF388 = some (.movRmR false false 6 (.reg 3)) ∧
      decodeTableWord 8 0xC7 = some (.movRmImm 0 (.mem 0) (.word 0)) ∧ decodeTableWord 8 0x90 = none := by decide

/-! ## The state at reset, and how a program comes to run -/

theorem test_reset_header : step State.reset = .next (emitHeader State.reset) := rfl
theorem test_withFetchWord :
    step (State.reset.withFetchWord 16 0x0CB1) = exec (.movRImm 1 (.byte 12)) (State.reset.withFetchWord 16 0x0CB1) :=
  rfl

/-! ## One step for each instruction (the vectors of spec/95_test_vectors.md, named in the theorem) -/

theorem test_S1_movRmR_direction : line [0x88, 0xC6] = "mov dh, al\n".toList ∧ (turn [0x88, 0xC6]).cur = 2 := by decide
theorem test_S2_movRmR_negative_displacement : line [0x8B, 0x41, 0xDB] = "mov ax, [bx+di -37]\n".toList := by decide
theorem test_V2_3_movRmImm_longest :
    line [0xC7, 0x85, 0x85, 0x03, 0x5B, 0x01] = "mov [di +901], word 347\n".toList := by decide
theorem test_V2_4_movRmImm_zero : line [0xC7, 0x07, 0, 0] = "mov [bx], word\n".toList := by decide
theorem test_S5_movRImm : line [0xB1, 0x0C] = "mov cl, byte 12\n".toList := by decide
theorem test_V3_5_movRImm_unsigned : line [0xBF, 0xFF, 0xFF] = "mov di, word 65535\n".toList := by decide
theorem test_V4_2_movAccMem_one_byte :
    line [0xA0, 0x34, 0x12] = "mov al, [52]\n".toList ∧ (turn [0xA0, 0x34, 0x12]).cur = 2 := by decide
theorem test_V4_4_movAccMem_unsigned : line [0xA1, 0xFF, 0xFF] = "mov ax, [65535]\n".toList := by decide
theorem test_V5_1_movMemAcc : line [0xA3, 0x0F, 0x00] = "mov [15], ax\n".toList := by decide
theorem test_E6_movSrRm :
    (turn [0x8E, 0xD8]).status = .failed .unimplemented ∧ (turn [0x8E, 0xD8]).cur = 1 ∧ line [0x8E, 0xD8] = [] := by decide
theorem test_E5_movRmSr :
    (turn [0x8C, 0xD8]).status = .failed .unimplemented ∧ (turn [0x8C, 0xD8]).cur = 1 ∧ line [0x8C, 0xD8] = [] := by decide
theorem test_V7_1_pushRm :
    columns (turn [0xFF, 0x36, 0x82, 0x0D]).record = (.push, [0, 6, 6, 1, 1, 3458, 4]) := by decide
theorem test_V8_3_pushR :
    columns (turn [0x57]).record = (.push, [0, 7, 0, 0, 0, 0, 1]) ∧ (turn [0x57]).status = .refused := by decide
theorem test_V9_5_pushSr :
    columns (turn [0x26]).record = (.push, [0, 4, 0, 0, 0, 0, 1]) ∧
      segmentCode (turn [0x26]).record = 0 := by decide
theorem test_V10_1_popRm : columns (turn [0x8F, 0x46, 0x02]).record = (.pop, [1, 0, 6, 1, 0, 2, 3]) := by decide
theorem test_V11_2_popR : columns (turn [0x5B]).record = (.pop, [0, 3, 0, 0, 0, 0, 1]) := by decide
theorem test_V12_6_popSr :
    columns (turn [0x3F]).record = (.pop, [0, 7, 0, 0, 0, 0, 1]) ∧ segmentCode (turn [0x3F]).record = 3 := by decide

/-- The record is dropped after its line, and a refused one stays (R118, R95). -/
theorem test_record_dropped_after_line :
    (turn [0x88, 0xC6]).record = Record.zero ∧ (turn [0x50]).record = resolve (recordPushR 0) := by decide

/-- A line is completed: characters outside 7-bit ASCII, newlines and trailing white space go, one newline ends it. -/
theorem test_completeLine :
    completeLine "push é\nax \t".toList = "push ax\n".toList ∧ completeLine [] = ['\n'] := by decide

/-- With PUSHPOP_RENDER giving lines, a push runs and the pass goes on (program P7, the second half). -/
theorem test_P7_pushR_line :
    (runSteps 1 (atDecode [0x50] .line)).status = .running ∧ (runSteps 1 (atDecode [0x50] .line)).cur = 1 := by decide

/-! ## Witnesses for the hypotheses of the statements -/

/-- ClassifierFollowsTable: each clause at the ends of its range. -/
theorem witness_ClassifierFollowsTable :
    (∀ b ∈ [0x88#8, 0x8B#8], b &&& 0xFC = 0x88) ∧ (∀ b ∈ [0xC6#8, 0xC7#8], b &&& 0xFE = 0xC6) ∧
      (∀ b ∈ [0xB0#8, 0xBF#8], b &&& 0xF0 = 0xB0) ∧ (∀ b ∈ [0xA0#8, 0xA1#8], b &&& 0xFE = 0xA0) ∧
      (∀ b ∈ [0xA2#8, 0xA3#8], b &&& 0xFE = 0xA2) ∧ (∀ b ∈ [0x50#8, 0x57#8], b &&& 0xF8 = 0x50) ∧
      (∀ b ∈ [0x06#8, 0x3E#8], b &&& 0xC7 = 0x06) ∧ (∀ b ∈ [0x58#8, 0x5F#8], b &&& 0xF8 = 0x58) ∧
      ∀ b ∈ [0x07#8, 0x3F#8], b &&& 0xC7 = 0x07 := by decide

/-- UnmatchedByteIsUnknown, UnmatchedByteEndsPass, and the last clause of ClassifierFollowsTable: neighbours of matched bytes. -/
theorem witness_UnmatchedByteIsUnknown :
    (atDecode [0x90] .refuse).input[0]? = some 0x90 ∧ (atDecode [0x90] .refuse).status = .running ∧
      (atDecode [0x90] .refuse).out ≠ [] ∧ classify 0x90 = none ∧ ∀ b ∈ [0x90#8, 0x8D#8, 0x46#8, 0xA4#8],
        ¬(b &&& 0xFC = 0x88 ∨ b &&& 0xFE = 0xC6 ∨ b &&& 0xF0 = 0xB0 ∨ b &&& 0xFE = 0xA0 ∨ b &&& 0xFE = 0xA2 ∨
          b = 0x8E ∨ b = 0x8C ∨ b = 0xFF ∨ b &&& 0xF8 = 0x50 ∨ b &&& 0xC7 = 0x06 ∨ b = 0x8F ∨ b &&& 0xF8 = 0x58 ∨
          b &&& 0xC7 = 0x07) := by decide

/-- ClassifierRowsDisjoint: a row of the table that takes a byte. -/
theorem witness_ClassifierRowsDisjoint : ∃ r ∈ classTable, r.accepts 0xFF = true := by decide

/-- DecodeOfEncode and LengthOneToSix: a well-formed instruction with a record. -/
theorem witness_DecodeOfEncode :
    (Instr.pushRm 6 (.direct 3458)).wellFormed = true ∧
      decodedRecord (.pushRm 6 (.direct 3458)) = some (recordPushRm 6 (.direct 3458)) := by decide

/-- EncodeOfDecode: bytes that decode, with bytes after them. -/
theorem witness_EncodeOfDecode : decode [0xA0, 0x34, 0x12] = .instr (.movAccMem (.byte 0x34)) [0x12] := by decide

/-- LengthFromFirstTwoBytes: two different instructions with the same first two bytes. -/
theorem witness_LengthFromFirstTwoBytes :
    let i := Instr.movRmImm 0 (.mem16 5 901) (.word 347)
    let j := Instr.movRmImm 0 (.mem16 5 0) (.word 1)
    i.wellFormed = true ∧ j.wellFormed = true ∧ (encode i).take 2 = (encode j).take 2 ∧ i ≠ j := by decide

/-- SegmentMoveIsUnimplemented: both bytes, with a byte after them and without. -/
theorem witness_SegmentMoveIsUnimplemented :
    ([0x8E, 0xD8] : List Byte)[0]? = some 0x8E ∧ ([0x8C] : List Byte)[0]? = some 0x8C := by decide

/-- TruncationIsMissingByte: the longest instruction cut after its first byte and before its last. -/
theorem witness_TruncationIsMissingByte :
    let i := Instr.movRmImm 0 (.direct 3458) (.word 4660)
    i.wellFormed = true ∧ ∀ part ∈ [[0xC7#8], [0xC7#8, 0x06, 0x82, 0x0D, 0x34]],
      part <+: encode i ∧ part ≠ [] ∧ part ≠ encode i := by decide

/-- ModRmFields and DisplacementField: the direct address, MOD = 1, MOD = 2 and no displacement, at both ends of the
range of each. -/
theorem witness_DisplacementField :
    (∀ bs ∈ [[0x8B#8, 0x06, 0x00, 0x00], [0x8B, 0x06, 0xFF, 0xFF]], ∃ r, decodeOne bs 0 = (.instr r, 4) ∧
      r.flags.modrm = true ∧ r.direct = true) ∧
      (∀ bs ∈ [[0x8B#8, 0x40, 0x7F], [0x8B, 0x40, 0x80]], ∃ r, decodeOne bs 0 = (.instr r, 3) ∧
        r.flags.modrm = true ∧ r.mod = 1) ∧
      (∀ bs ∈ [[0x8B#8, 0x80, 0xFF, 0x7F], [0x8B, 0x80, 0x00, 0x80]], ∃ r, decodeOne bs 0 = (.instr r, 4) ∧
        r.flags.modrm = true ∧ r.mod = 2) ∧
      ∀ bs ∈ [[0x8B#8, 0x07], [0x8B, 0xC0]], ∃ r, decodeOne bs 0 = (.instr r, 2) ∧
        r.flags.modrm = true ∧ r.direct = false ∧ r.mod ≠ 1 ∧ r.mod ≠ 2 := by
  refine ⟨?_, ?_, ?_, ?_⟩ <;> simp only [List.forall_mem_cons] <;>
    exact ⟨⟨_, rfl, by decide⟩, ⟨_, rfl, by decide⟩, by simp⟩

/-- ModRmFields: a record with no ModRM byte and no register code, and an opcode whose ModRM byte is not there. -/
theorem witness_ModRmFields :
    (∃ r, decodeOne [0xA0, 0x34] 0 = (.instr r, 2) ∧ r.flags.modrm = false ∧ r.flags.regop = false ∧
      r.flags.regdirect = false) ∧
      ∃ row, classify 0xFF = some row ∧ row.flags.modrm = true ∧ ([0xFF#8] : List Byte)[1]? = none :=
  ⟨⟨_, rfl, by decide⟩, ⟨_, rfl, by decide⟩⟩

/-- AccumulatorAddressField: every opcode of the two rows, with the address bytes there and not there. -/
theorem witness_AccumulatorAddressField :
    (∀ b ∈ [0xA0#8, 0xA2#8], (b = 0xA0 ∨ b = 0xA2) ∧ decodeOne [b] 0 = (.err .missingByte, 1) ∧
      (decodeOne [b, 0xFF] 0).2 = 2) ∧
      ∀ b ∈ [0xA1#8, 0xA3#8], (b = 0xA1 ∨ b = 0xA3) ∧ decodeOne [b] 0 = (.err .missingByte, 1) ∧
        decodeOne [b, 0x82] 0 = (.err .missingByte, 2) ∧ (decodeOne [b, 0xFF, 0xFF] 0).2 = 3 := by decide

/-- ImmediateDataField: both rows, and both widths, each with its data there and not there. -/
theorem witness_ImmediateDataField :
    (∃ reg : RegCode, [0xB8#8] = [0b1011#4 ++ bit true ++ reg]) ∧
      (∃ (reg : RegCode) (rm : Rm), rm.wellFormed = true ∧
        [0xC6#8, 0x06, 0x82, 0x0D] = (0b1100011#7 ++ bit false) :: modRmBytes reg rm) ∧
      decodeOne [0xB8, 0x01] 0 = (.err .missingByte, 2) ∧ (decodeOne [0xB8, 0xFF, 0xFF] 0).2 = 3 ∧
      decodeOne [0xC6, 0x06, 0x82, 0x0D] 0 = (.err .missingByte, 4) ∧
      (decodeOne [0xC6, 0x06, 0x82, 0x0D, 0xFF] 0).2 = 5 :=
  ⟨⟨0, by decide⟩, ⟨0, .direct 3458, by decide⟩, by decide⟩

/-- FreshRecord and DecodedRecordShape: a record with every flag but one clear, and one with no immediate. -/
theorem witness_FreshRecord :
    (∃ r, decodeOne [0x07] 0 = (.instr r, 1) ∧ r.flags.modrm = false ∧ r.flags.acc = false ∧ r.flags.imm = false ∧
      r.flags.d = false ∧ r.flags.wlow = false ∧ r.flags.w3 = false) ∧
      (∃ r, decodeOne [0xA3, 0x0F, 0x00] 0 = (.instr r, 3) ∧ r.flags.modrm = false ∧ r.flags.regop = false ∧
        r.flags.regdirect = false) ∧
      ∃ r, decodeOne [0x8F, 0x06, 0x82, 0x0D] 0 = (.instr r, 4) ∧ r.direct = true :=
  ⟨⟨_, rfl, by decide⟩, ⟨_, rfl, by decide⟩, ⟨_, rfl, by decide⟩⟩

/-- TurnIsDecodeThenPrint, StepRunsDecoded and NoStaleState: two states at their decode, equal in source, cursor and
setting, different in text and record. -/
theorem witness_AtDecode :
    let s := atDecode [0x88, 0xC6] .refuse
    let t := { s with out := header ++ "mov ax, ax\n".toList, record := recordPushR 3 }
    s.AtDecode ∧ t.AtDecode ∧ s ≠ t ∧ s.input = t.input ∧ s.cur = t.cur ∧ s.pushPop = t.pushPop ∧
      decode (s.input.drop s.cur) = .instr (.movRmR false false 0 (.reg 6)) [] := by
  unfold State.AtDecode; decide

/-- DisplacementText: 0, both ends of the positive range, both ends of the negative range. -/
theorem witness_DisplacementText :
    (0#16).toNat = 0 ∧ 0 < (1#16).toNat ∧ 0 < (32767#16).toNat ∧ (32767#16).toNat < 32768 ∧
      32768 ≤ (32768#16).toNat ∧ 32768 ≤ (65535#16).toNat := by decide

/-- RenderNotInjective: the codes beside 6, and two codes that differ in one bit at either end. -/
theorem witness_RenderNotInjective :
    (5 : RegCode) ≠ 6 ∧ (7 : RegCode) ≠ 6 ∧ (0 : RegCode) ≠ 1 ∧ (0 : RegCode) ≠ 4 := by decide

/-- MoveLineInGrammar: the printed line of a Move, under both settings. -/
theorem witness_MoveLineInGrammar :
    decodedRecord (.movRmR false false 0 (.reg 6)) = some (recordMovRmR false false 0 (.reg 6)) ∧
      (recordMovRmR false false 0 (.reg 6)).op = .move ∧
      ∀ p ∈ [PushPopSetting.refuse, .line], printedLine p (.movRmR false false 0 (.reg 6)) = some "mov dh, al\n".toList := by
  decide

/-- PushPopLineIsComplete: the settings that give a line, and a complete line. -/
theorem witness_PushPopLineIsComplete :
    pushPopRender .line (recordPushR 3) = some (pushPopLine (recordPushR 3)) ∧ IsLine "pop [4]\n".toList ∧
      IsLine ['\n'] :=
  ⟨rfl, ⟨"pop [4]".toList, by decide, by simp, by
    rintro c h; cases h; decide⟩, ⟨[], rfl, by simp, by simp⟩⟩

/-- OneLinePerInstruction: a Move under the default, a Pop under the setting that gives lines. -/
theorem witness_OneLinePerInstruction :
    ((atDecode [0xB1, 0x0C] .refuse).AtDecode ∧
      decode ((atDecode [0xB1, 0x0C] .refuse).input.drop 0) = .instr (.movRImm 1 (.byte 12)) [] ∧
      ∃ l, printedLine .refuse (.movRImm 1 (.byte 12)) = some l) ∧
      (atDecode [0x5B] .line).AtDecode ∧ decode ((atDecode [0x5B] .line).input.drop 0) = .instr (.popR 3) [] ∧
        ∃ l, printedLine .line (.popR 3) = some l :=
  ⟨⟨⟨rfl, by decide⟩, by decide, _, rfl⟩, ⟨rfl, by decide⟩, by decide, _, rfl⟩

/-- MovRmRPrintsLine, MovRmImmPrintsLine and PushPopPrintsLine: each shape of RM at its end values, and the setting. -/
theorem witness_PrintsLine :
    (∀ rm ∈ [Rm.mem 5, Rm.mem 7, Rm.direct 65535, Rm.mem8 6 0x80, Rm.mem16 7 32768, Rm.reg 6], rm.wellFormed = true) ∧
      State.reset.pushPop = .line := by decide

/-- PushPopDefaultRefuses: a pop shape under each of its two settings. -/
theorem witness_PushPopDefaultRefuses :
    decodedRecord (.popSr 7) = some (recordPopSr 7) ∧ (recordPopSr 7).op ≠ .move ∧
      (atDecode [0x3F] .refuse).pushPop = .refuse ∧ (atDecode [0x3F] .perRecord).pushPop = .perRecord := by decide

/-- InstructionFrame: each kind of instruction gives a next state. -/
theorem witness_InstructionFrame :
    (∃ t, exec (.movRImm 1 (.byte 12)) State.reset = .next t) ∧ (∃ t, exec .movSrRm State.reset = .next t) ∧
      ∃ t, exec (.pushR 3) State.reset = .next t := ⟨⟨_, rfl⟩, ⟨_, rfl⟩, ⟨_, rfl⟩⟩

/-- PlacedWordRuns: a two-byte word. -/
theorem witness_PlacedWordRuns : decodeTableWord 16 0x0CB1 = some (.movRImm 1 (.byte 12)) := by decide

/-- HeaderBeforeAnyByte: a source that holds bytes. -/
theorem witness_HeaderBeforeAnyByte :
    (startPass [0x88, 0xC6] .refuse).status = .running ∧ (startPass [0x88, 0xC6] .refuse).out = [] := by decide

/-- A pass in its middle: one line printed, a second instruction to come. -/
def middle : State :=
  { atDecode [0x88, 0xC6, 0x89, 0xD9] .refuse with cur := 2, out := header ++ "mov dh, al\n".toList }

/-- A pass that has printed the line of its whole source and stands at the end of it. -/
def atEnd : State :=
  { atDecode [0x88, 0xC6] .refuse with cur := 2, out := header ++ "mov dh, al\n".toList }

/-- StepKeepsPassInvariant: a state in the middle of a pass meets the invariant and takes a step. -/
theorem witness_StepKeepsPassInvariant : PassInv middle ∧ ∃ t, step middle = .next t :=
  ⟨.inr ⟨[.movRmR false false 0 (.reg 6)], by decide, ⟨["mov dh, al\n".toList], by decide⟩, by decide, [], by decide,
    rfl⟩, _, rfl⟩

/-- CleanEnd and EndOfPassState: the end of a pass of one instruction, which the next step finds; and the end of an empty source. -/
theorem witness_CleanEnd :
    (atEnd.AtDecode ∧ atEnd.cur = atEnd.input.length ∧ PassInv atEnd ∧ atEnd.status = .running ∧
      ∃ t, step atEnd = .next t ∧ t.status = .done) ∧
      (atDecode [] .refuse).AtDecode ∧ (atDecode [] .refuse).cur = (atDecode [] .refuse).input.length :=
  ⟨⟨⟨rfl, by decide⟩, by decide,
    .inr ⟨[.movRmR false false 0 (.reg 6)], by decide, ⟨["mov dh, al\n".toList], by decide⟩, by decide, [], by decide,
      rfl⟩, rfl, _, rfl, by decide⟩, ⟨rfl, by decide⟩, by decide⟩

/-- FailureStopsPass and EndOfPassState: each of the three kinds at a decode. -/
theorem witness_FailureStopsPass :
    let s (bs : List Byte) := atDecode bs .refuse
    (∀ bs ∈ [[0x90#8], [0x8C#8, 0xD8], [0x8B#8]], (s bs).status = .running ∧ (s bs).out ≠ []) ∧
      decodeOne (s [0x90]).input 0 = (.err .unknown, 1) ∧
      decodeOne (s [0x8C, 0xD8]).input 0 = (.err .unimplemented, 1) ∧
      decodeOne (s [0x8B]).input 0 = (.err .missingByte, 1) := by decide

/-- NoReturnFromTheEnd and TerminalStateStays: the terminal statuses. -/
theorem witness_NoReturnFromTheEnd :
    ∀ st ∈ [Status.done, .refused, .failed .unknown, .failed .unimplemented, .failed .missingByte],
      ({ State.reset with status := st } : State).status.terminal = true := by decide

/-- NoLookAhead: a turn that runs an instruction, one that fails as Unknown, one that is refused. -/
theorem witness_NoLookAhead :
    ∀ bs ∈ [[0x88#8, 0xC6, 0x90], [0x90#8, 0x90], [0x50#8, 0x90]],
      ((atDecode bs .refuse).status = .running ∧ (atDecode bs .refuse).out ≠ []) ∧
        (atDecode bs .refuse).cur ≤ (atDecode bs .refuse).input.length ∧ (turn bs).status ≠ .done ∧
        (turn bs).status ≠ .failed .missingByte := by decide

/-- StepKeepsWholeLines and OutAsAsciiBytes: a state in the middle of a pass. -/
theorem witness_StepKeepsWholeLines : LinesInv middle ∧ ∃ t, step middle = .next t :=
  ⟨.inr ⟨["mov dh, al\n".toList], by decide, by
    intro l hl
    obtain rfl := List.mem_singleton.mp hl
    exact ⟨"mov dh, al".toList, by decide, by simp, by rintro c h; cases h; decide⟩⟩, _, rfl⟩

/-- StepKeepsGrammar: a state in the middle of a pass under the default of PUSHPOP_RENDER. -/
theorem witness_StepKeepsGrammar : GrammarInv middle ∧ ∃ t, step middle = .next t :=
  ⟨⟨rfl, .inr ⟨["mov dh, al\n".toList], by decide, by
    intro l hl
    obtain rfl := List.mem_singleton.mp hl
    exact ⟨"dh".toList, "al".toList, .inl (by unfold IsReg; decide), .inl (by unfold IsReg; decide), by decide⟩⟩⟩,
    _, rfl⟩

/-- TranslateEnds: a pass that ends Done, and one that ends MissingByte. -/
theorem witness_TranslateEnds :
    (Machine.translate [0x88, 0xC6] .refuse).status = .done ∧
      (Machine.translate [0x8B, 0x9E, 0x01] .refuse).status = .failed .missingByte := by decide

end Sys2Proof.Tests
end

/-! SUPPORT. The classifier as its table: which row a byte gets, and which bytes get none (spec/30_encoding.md R54 to
R58). -/

namespace Sys2Proof

/-- The order of the table does not matter: a row that accepts a byte is the row the classifier gives (R54). -/
theorem classify_of_accepts : ∀ {b : Byte}, ∀ {row : ClassRow}, row ∈ classTable → row.accepts b = true →
    classify b = some row := by
  decide

/-- The classifier gives rows of the table that accept the byte, and no others (R54). -/
theorem classify_eq_some_iff {b : Byte} {row : ClassRow} :
    classify b = some row ↔ row ∈ classTable ∧ row.accepts b = true := by
  refine ⟨fun h => ?_, fun ⟨hmem, hacc⟩ => classify_of_accepts hmem hacc⟩
  have hacc := List.find?_some h
  exact ⟨List.mem_of_find?_eq_some h, hacc⟩

/-- The bytes that some row of the table accepts, by mask and value as R55 lists them. -/
def Matched (b : Byte) : Prop :=
  b &&& 0xFC = 0x88 ∨ b &&& 0xFE = 0xC6 ∨ b &&& 0xF0 = 0xB0 ∨ b &&& 0xFE = 0xA0 ∨ b &&& 0xFE = 0xA2 ∨
    b = 0x8E ∨ b = 0x8C ∨ b = 0xFF ∨ b &&& 0xF8 = 0x50 ∨ b &&& 0xC7 = 0x06 ∨ b = 0x8F ∨ b &&& 0xF8 = 0x58 ∨
    b &&& 0xC7 = 0x07

/-- The mask 0xFF keeps every bit. -/
theorem and_0xFF (b : Byte) : b &&& 0xFF#8 = b := BitVec.and_allOnes

/-- A byte outside the listed patterns has no row (R57). -/
theorem classify_of_not_matched {b : Byte} (h : ¬ Matched b) : classify b = none := by
  simpa [classify, classTable, moveRows, segmentMoveRows, pushPopRows, ClassRow.accepts, and_0xFF, Matched] using h

/-- The operation and the flags that the classifier gives are those of any row that accepts the byte. -/
theorem classify_opFlags_of_accepts {b : Byte} (k : Nat) (hk : k < classTable.length)
    (hacc : classTable[k].accepts b = true) :
    (classify b).map (fun r => (r.op, r.flags)) = some (classTable[k].op, classTable[k].flags) := by
  rw [classify_of_accepts (List.getElem_mem hk) hacc, Option.map_some]

/-- Settles O1: each clause names the row of the table that accepts the byte; the last one is the absence of a row. -/
theorem classifierFollowsTable : Obligations.ClassifierFollowsTable := by
  intro b
  have row := @classify_opFlags_of_accepts b
  refine ⟨fun h => row 0 (by decide) (beq_iff_eq.mpr h), fun h => row 1 (by decide) (beq_iff_eq.mpr h),
    fun h => row 2 (by decide) (beq_iff_eq.mpr h), fun h => row 3 (by decide) (beq_iff_eq.mpr h),
    fun h => row 4 (by decide) (beq_iff_eq.mpr h), ?_, ?_, fun h => row 8 (by decide) (beq_iff_eq.mpr h),
    fun h => row 9 (by decide) (beq_iff_eq.mpr h), ?_, fun h => row 11 (by decide) (beq_iff_eq.mpr h),
    fun h => row 12 (by decide) (beq_iff_eq.mpr h), fun h => by rw [classify_of_not_matched h]; rfl⟩
  · rintro (rfl | rfl)
    · exact row 5 (by decide) (by decide)
    · exact row 6 (by decide) (by decide)
  · rintro rfl
    exact row 7 (by decide) (by decide)
  · rintro rfl
    exact row 10 (by decide) (by decide)

end Sys2Proof

/-! SUPPORT. The list decoder and the encoder are inverse to each other; what a truncated instruction decodes to. -/

namespace Sys2Proof

/-- The bytes of a well-formed instruction decode to it, whatever follows them. -/
theorem decode_encode (i : Instr) (h : i.wellFormed = true) (rest : List Byte) :
    decode (encode i ++ rest) = .instr i rest := by
  cases i with
  | movRmR d w reg rm =>
    obtain ⟨hf, hd, hw⟩ := movRmR_opcode d w
    simp [encode, decode_of_form hf, takeForm, takeModRm_bytes reg rm h, hd, hw]
  | movRmImm reg rm data =>
    obtain ⟨hf, hw, _⟩ := movRmImm_opcode data.isWord
    simp [encode, decode_of_form hf, takeForm, takeModRm_bytes reg rm h, hw]
  | movRImm reg data =>
    obtain ⟨hf, hw, hr⟩ := movRImm_opcode data.isWord reg
    simp [encode, decode_of_form hf, takeForm, hw, hr]
  | movAccMem addr =>
    obtain ⟨hf, hw, _⟩ := movAccMem_opcode addr.isWord
    simp [encode, decode_of_form hf, takeForm, hw]
  | movMemAcc addr =>
    obtain ⟨hf, hw, _⟩ := movMemAcc_opcode addr.isWord
    simp [encode, decode_of_form hf, takeForm, hw]
  | movSrRm => rfl
  | movRmSr => rfl
  | pushRm reg rm =>
    have hf : (classify 0xFF#8).map ClassRow.form = some .pushRm := rfl
    simp [encode, decode_of_form hf, takeForm, takeModRm_bytes reg rm h]
  | pushR reg =>
    obtain ⟨hf, hr, _⟩ := pushR_popR_opcode reg
    simp [encode, decode_of_form hf, takeForm, hr]
  | pushSr code =>
    obtain ⟨hf, hc, _⟩ := pushSr_popSr_opcode code
    simp [encode, decode_of_form hf, takeForm, hc]
  | popRm reg rm =>
    have hf : (classify 0x8F#8).map ClassRow.form = some .popRm := rfl
    simp [encode, decode_of_form hf, takeForm, takeModRm_bytes reg rm h]
  | popR reg =>
    obtain ⟨_, _, hf, hr⟩ := pushR_popR_opcode reg
    simp [encode, decode_of_form hf, takeForm, hr]
  | popSr code =>
    obtain ⟨_, _, hf, hc⟩ := pushSr_popSr_opcode code
    simp [encode, decode_of_form hf, takeForm, hc]

/-- What a form's fields were read from: the rest of the encoding of a well-formed instruction, whose opcode byte is
the one rebuilt from the byte's own fields. -/
theorem takeForm_some {f : Form} {b : Byte} {bs rest : List Byte} {i : Instr}
    (h : takeForm f b bs = some (i, rest)) :
    i.wellFormed = true ∧ rebuiltOpcode b f :: bs = encode i ++ rest := by
  cases f <;> simp only [takeForm, Option.map_eq_some_iff, Prod.mk.injEq, Prod.exists, Option.some.injEq] at h
  case movRmR | pushRm | popRm =>
    obtain ⟨reg, rm, rest', hm, rfl, rfl⟩ := h
    obtain ⟨hwf, rfl⟩ := takeModRm_some hm
    exact ⟨hwf, rfl⟩
  case movRmImm =>
    split at h
    · cases h
    · rename_i m rest' hm
      simp only [Option.map_eq_some_iff, Prod.mk.injEq, Prod.exists] at h
      obtain ⟨v, rest'', hv, rfl, rfl⟩ := h
      obtain ⟨hwf, rfl⟩ := takeModRm_some hm
      obtain ⟨hw, rfl⟩ := takeSized_some hv
      exact ⟨hwf, by simp [rebuiltOpcode, encode, hw]⟩
  case movRImm | movAccMem | movMemAcc =>
    obtain ⟨v, rest', hv, rfl, rfl⟩ := h
    obtain ⟨hw, rfl⟩ := takeSized_some hv
    exact ⟨rfl, by simp [rebuiltOpcode, encode, hw]⟩
  all_goals
    obtain ⟨rfl, rfl⟩ := h
    exact ⟨rfl, rfl⟩

/-- An opcode byte is rebuilt from the form of its row and its own fields. -/
theorem rebuiltOpcode_of_classify {b : Byte} {row : ClassRow} (h : classify b = some row) :
    rebuiltOpcode b row.form = b := by
  simpa [h] using rebuiltOpcode_of_row b

/-- An instruction is decoded by the row of its first byte. -/
theorem decode_instr_row {bs rest : List Byte} {i : Instr} (h : decode bs = .instr i rest) :
    ∃ b tail row, bs = b :: tail ∧ classify b = some row ∧ takeForm row.form b tail = some (i, rest) := by
  cases bs with
  | nil => cases h
  | cons b tail =>
    cases hc : classify b with
    | none => simp [decode_of_no_row hc] at h
    | some row =>
      refine ⟨b, tail, row, rfl, hc, ?_⟩
      cases ht : takeForm row.form b tail with
      | none => simp [decode, hc, ht] at h
      | some p => simpa [decode, hc, ht, Prod.ext_iff] using h

/-- What decodes is the encoding of a well-formed instruction and the bytes after it. -/
theorem encode_of_decode {bs rest : List Byte} {i : Instr} (h : decode bs = .instr i rest) :
    i.wellFormed = true ∧ bs = encode i ++ rest := by
  obtain ⟨b, tail, row, rfl, hrow, htake⟩ := decode_instr_row h
  simpa [rebuiltOpcode_of_classify hrow] using takeForm_some htake

/-- The decoder finds the clean end exactly where no byte is left (R67, R74). -/
theorem decode_eq_endOfStream_iff {bs : List Byte} : decode bs = .endOfStream ↔ bs = [] := by
  refine ⟨fun h => ?_, fun h => by rw [h]; rfl⟩
  cases bs with
  | nil => rfl
  | cons b bs =>
    cases hc : classify b with
    | none => simp [decode_of_no_row hc] at h
    | some row => cases ht : takeForm row.form b bs <;> simp [decode, hc, ht] at h

/-- The two ways a decode of some bytes can fail to give an instruction. -/
theorem decode_error_cases {bs : List Byte} {k : ErrorKind} {n : Nat} (h : decode bs = .error k n) :
    (k = .unknown ∧ n = 1 ∧ ∃ b tail, bs = b :: tail ∧ classify b = none) ∨
      (k = .missingByte ∧ n = bs.length ∧
        ∃ b tail row, bs = b :: tail ∧ classify b = some row ∧ takeForm row.form b tail = none) := by
  cases bs with
  | nil => cases h
  | cons b tail =>
    cases hc : classify b with
    | none =>
      obtain ⟨rfl, rfl⟩ : ErrorKind.unknown = k ∧ 1 = n := by simpa [decode_of_no_row hc] using h
      exact .inl ⟨rfl, rfl, b, tail, rfl, hc⟩
    | some row =>
      cases ht : takeForm row.form b tail with
      | none =>
        obtain ⟨rfl, rfl⟩ : ErrorKind.missingByte = k ∧ tail.length + 1 = n := by simpa [decode, hc, ht] using h
        exact .inr ⟨rfl, rfl, b, tail, row, rfl, hc, ht⟩
      | some p => simp [decode, hc, ht] at h

/-- Some but not all of the first bytes of an instruction decode to MissingByte (R67): to no instruction, since with the
missing bytes after them the decoder would read two different ones, and not to Unknown, since the first byte has a
row. -/
theorem decode_properPrefix {i : Instr} (hwf : i.wellFormed = true) {part : List Byte} (hpre : part <+: encode i)
    (hne : part ≠ []) (hproper : part ≠ encode i) : decode part = .error .missingByte part.length := by
  obtain ⟨missing, hmissing⟩ := hpre
  have hwhole : decode (part ++ missing) = .instr i [] := by
    simpa [hmissing] using decode_encode i hwf []
  cases hd : decode part with
  | endOfStream => exact absurd (decode_eq_endOfStream_iff.mp hd) hne
  | instr j rest =>
    obtain ⟨hj, hpart⟩ := encode_of_decode hd
    have hsame : Decoded.instr i [] = .instr j (rest ++ missing) := by
      rw [← hwhole, hpart, List.append_assoc]
      exact decode_encode j hj (rest ++ missing)
    have hmissing_nil : missing = [] := (List.append_eq_nil_iff.mp (Decoded.instr.inj hsame).2.symm).2
    rw [hmissing_nil, List.append_nil] at hmissing
    exact absurd hmissing hproper
  | error k n =>
    rcases decode_error_cases hd with ⟨_, _, b, tail, rfl, hc⟩ | ⟨rfl, rfl, _⟩
    · simp [decode_of_no_row hc] at hwhole
    · rfl

end Sys2Proof

/-! SUPPORT. The flag-governed DecodeOne, read one NextByte at a time, answers what the list decoder answers on the
bytes from the cursor on (spec/30_encoding.md R60 to R67, R74). -/

namespace Sys2Proof.Machine

/-! ## NextByte by the bytes from the cursor on -/

theorem getElem?_of_drop_cons {input tail : List Byte} {b : Byte} {c : Nat} (h : input.drop c = b :: tail) :
    input[c]? = some b := by
  rw [← List.head?_drop, h, List.head?_cons]

theorem nextByte_of_drop_cons {input tail : List Byte} {b : Byte} {c : Nat} (h : input.drop c = b :: tail) :
    nextByte input c = (some b, c + 1) :=
  nextByte_of_some (getElem?_of_drop_cons h)

theorem nextByte_of_drop_nil {input : List Byte} {c : Nat} (h : input.drop c = []) :
    nextByte input c = (none, c) :=
  nextByte_of_none (by rw [← List.head?_drop, h, List.head?_nil])

theorem drop_succ_of_drop_cons {input tail : List Byte} {b : Byte} {c : Nat} (h : input.drop c = b :: tail) :
    input.drop (c + 1) = tail := by
  rw [← List.tail_drop, h, List.tail_cons]

theorem lt_length_of_drop_cons {input tail : List Byte} {b : Byte} {c : Nat} (h : input.drop c = b :: tail) :
    c + 1 ≤ input.length := by
  have := congrArg List.length h
  simp only [List.length_drop, List.length_cons] at this
  omega

theorem eq_length_of_drop_nil {input : List Byte} {c : Nat} (hc : c ≤ input.length) (h : input.drop c = []) :
    c = input.length :=
  Nat.le_antisymm hc (List.drop_eq_nil_iff.mp h)

/-! ## One field at a time -/

/-- A list reader's answer and an extractor's: both find a byte missing, and then the cursor is at the end of the
source (R67); or both give a value, `f` taking the one to the other, and the list that is left is the source from the
extractor's cursor on. -/
inductive Agrees {α β : Type} (input : List Byte) (f : α → β) : Option (α × List Byte) → Option β × Nat → Prop where
  | missing : Agrees input f none (none, input.length)
  | read (v : α) {c : Nat} (hc : c ≤ input.length) : Agrees input f (some (v, input.drop c)) (some (f v), c)

section
variable {α β γ : Type} {input : List Byte} {f : α → β} {c : Nat}

/-- The list reader may wrap its value in `k`, as a form does its fields. -/
theorem Agrees.map {t : Option (α × List Byte)} {e : Option β × Nat} (h : Agrees input f t e) {g : γ → β} {k : α → γ}
    (hk : ∀ v rest, t = some (v, rest) → f v = g (k v)) :
    Agrees input g (t.map fun p => (k p.1, p.2)) e := by
  cases h with
  | missing => exact .missing
  | read v hc => rw [hk v _ rfl]; exact .read (f := g) (k v) hc

/-- `NextByte()` is the one-byte reader (R37). -/
theorem nextByte_agrees (hc : c ≤ input.length) :
    Agrees input id (takeByte (input.drop c)) (nextByte input c) := by
  rcases hd : input.drop c with _ | ⟨b, rest⟩
  · rw [nextByte_of_drop_nil hd, eq_length_of_drop_nil hc hd]
    exact .missing
  · rw [nextByte_of_drop_cons hd, ← drop_succ_of_drop_cons hd]
    exact .read b (lt_length_of_drop_cons hd)

/-- Two `NextByte` calls are the two-byte reader (R39). -/
theorem nextWord_agrees (hc : c ≤ input.length) :
    Agrees input id (takeWord (input.drop c)) (nextWord input c) := by
  rcases hd : input.drop c with _ | ⟨lo, tail⟩
  · rw [nextWord, nextByte_of_drop_nil hd, eq_length_of_drop_nil hc hd]
    exact .missing
  · have hlt := lt_length_of_drop_cons hd
    have htail := drop_succ_of_drop_cons hd
    rw [nextWord, nextByte_of_drop_cons hd]
    rcases tail with _ | ⟨hi, rest⟩
    · simp only [nextByte_of_drop_nil htail]
      rw [eq_length_of_drop_nil hlt htail]
      exact .missing
    · simp only [nextByte_of_drop_cons htail]
      rw [← drop_succ_of_drop_cons htail]
      exact .read (le16 lo hi) (lt_length_of_drop_cons htail)

/-- `ReadWidth()` is the sized reader (R65, R66). -/
theorem nextSized_agrees (w : Bool) (hc : c ≤ input.length) :
    Agrees input Sized.value (takeSized w (input.drop c)) (nextSized w input c) := by
  cases w with
  | true => exact (nextWord_agrees hc).map fun _ _ _ => rfl
  | false =>
    have h := nextByte_agrees hc
    simp only [takeSized, nextSized, Bool.false_eq_true, if_false]
    generalize takeByte (input.drop c) = t, nextByte input c = e at h
    cases h with
    | missing => exact .missing
    | read v hc => exact .read (f := Sized.value) (.byte v) hc

/-- The accumulator address is a sized field of the record's width (R65). -/
theorem readAddr_agrees (r : Record) (hc : c ≤ input.length) :
    Agrees input (fun v : Sized => { r with addr := v.value }) (takeSized r.word (input.drop c))
      (readAddr input r c) := by
  have h := nextSized_agrees r.word hc
  unfold readAddr
  generalize takeSized r.word (input.drop c) = t, nextSized r.word input c = e at h
  cases h <;> constructor
  assumption

/-- The immediate data is a sized field of the record's width (R66). -/
theorem readData_agrees (r : Record) (hc : c ≤ input.length) :
    Agrees input (fun v : Sized => { r with data := v.value }) (takeSized r.word (input.drop c))
      (readData input r c) := by
  have h := nextSized_agrees r.word hc
  unfold readData
  generalize takeSized r.word (input.drop c) = t, nextSized r.word input c = e at h
  cases h <;> constructor
  assumption

/-- The displacement or direct address that the codes of the ModRM byte call for (R64); the four branches are those of
MOD, with the direct address taken out of the first. -/
theorem readDisp_agrees {r : Record} (hr : r.disp = 0) (mod : ModCode) (reg code : RegCode) (hc : c ≤ input.length) :
    Agrees input (withModRm r reg) (takeRm mod code (input.drop c)) (readDisp input (withCodes r mod reg code) c) := by
  have hword := nextWord_agrees hc
  have hbyte := nextByte_agrees hc
  have hmod : mod = 0#2 ∨ mod = 1#2 ∨ mod = 2#2 ∨ mod = 3#2 := by revert mod; decide
  unfold takeRm readDisp
  rcases hmod with rfl | rfl | rfl | rfl
  · by_cases hcode : code = 6#3
    · subst hcode
      generalize takeWord (input.drop c) = t, nextWord input c = e at hword ⊢
      cases hword with
      | missing => exact .missing
      | read a hc => exact .read (f := withModRm r reg) (.direct a) hc
    · have hnone : withCodes r 0#2 reg code = withModRm r reg (.mem code) := by
        simp [withModRm, withCodes, Rm.mod, Rm.code, Rm.disp, hr]
      simpa [withCodes, directFlag, hcode, ← hnone] using Agrees.read (f := withModRm r reg) (.mem code) hc
  · generalize takeByte (input.drop c) = t, nextByte input c = e at hbyte ⊢
    cases hbyte with
    | missing => exact .missing
    | read d hc => exact .read (f := withModRm r reg) (.mem8 code d) hc
  · generalize takeWord (input.drop c) = t, nextWord input c = e at hword ⊢
    cases hword with
    | missing => exact .missing
    | read d hc => exact .read (f := withModRm r reg) (.mem16 code d) hc
  · have hnone : withCodes r 3#2 reg code = withModRm r reg (.reg code) := by
      simp [withModRm, withCodes, Rm.mod, Rm.code, Rm.disp, hr]
    simpa [withCodes, directFlag, ← hnone] using Agrees.read (f := withModRm r reg) (.reg code) hc

/-- The ModRM byte and what it calls for (R63, R64). -/
theorem readModRm_readDisp_agrees {r : Record} (hr : r.disp = 0) (hc : c ≤ input.length) :
    Agrees input (fun p : RegCode × Rm => withModRm r p.1 p.2) (takeModRm (input.drop c))
      ((readModRm input r c).andThen (readDisp input)) := by
  unfold takeModRm readModRm
  have h := nextByte_agrees hc
  generalize takeByte (input.drop c) = t, nextByte input c = e at h
  cases h with
  | missing => exact .missing
  | read m hc => exact (readDisp_agrees hr (modField m) (regField m) (rmField m) hc).map fun _ _ _ => rfl

end

/-! ## Whole instructions -/

/-- What the extractor has of an instruction's record: all of it but the length, which the end of the decode sets. -/
def unmeasured (i : Instr) : Record := { (decodedRecord i).getD Record.zero with len := 0 }

@[simp] theorem opcodeFields_flags (op : Op) (f : LayoutFlags) (b : Byte) : (opcodeFields op f b).flags = f := rfl

@[simp] theorem gated_true (f : Record → Nat → Extracted) : gated true f = f := rfl

@[simp] theorem andThen_some (r : Record) (c : Nat) (f : Record → Nat → Extracted) :
    Extracted.andThen (some r, c) f = f r c := rfl

@[simp] theorem gated_false (f : Record → Nat → Extracted) (r : Record) (c : Nat) :
    gated false f r c = (some r, c) := rfl

@[simp] theorem andThen_gated_false (e : Extracted) (f : Record → Nat → Extracted) :
    e.andThen (gated false f) = e := by
  rcases e with ⟨_ | r, c⟩ <;> rfl

section
variable {input : List Byte} {b : Byte} {c : Nat}

/-- MOV_RM_IMM: the immediate data follows the operand and has the width of the opcode byte (R66). -/
theorem readData_after_readDisp_agrees (hd : dBit b = true) {r : Record}
    (hr : r = opcodeFields .move { d := true, wlow := true, modrm := true, imm := true } b) (hc : c ≤ input.length) :
    Agrees input unmeasured (takeForm .movRmImm b (input.drop c))
      (((readModRm input r c).andThen (readDisp input)).andThen (readData input)) := by
  have hrm := readModRm_readDisp_agrees (r := r) (by rw [hr]; rfl) hc
  unfold takeForm
  generalize takeModRm (input.drop c) = t, (readModRm input r c).andThen (readDisp input) = e at hrm ⊢
  cases hrm with
  | missing => exact .missing
  | read p hc' =>
    have hw : (withModRm r p.1 p.2).word = wLowBit b := by simp [hr, opcodeFields, wordFlag]
    rw [andThen_some, ← hw]
    refine (readData_agrees _ hc').map fun v rest hv => ?_
    obtain ⟨hv, _⟩ := takeSized_some hv
    simp [hr, unmeasured, decodedRecord, recordMovRmImm, opcodeFields, revFlag, withModRm, withCodes, hd, hv]

/-- The address of an accumulator move, with the fields its opcode byte sets (R65): `i` is the instruction by its
address, and the direction is its only other difference. -/
theorem readAddr_of_opcodeFields_agrees {i : Sized → Instr}
    (hi : ∀ a, unmeasured (i a) =
      { op := .move, flags := { d := true, wlow := true, acc := true }, rev := dBit b
        word := a.isWord, addr := a.value })
    (hc : c ≤ input.length) :
    Agrees input unmeasured ((takeSized (wLowBit b) (input.drop c)).map fun p => (i p.1, p.2))
      (readAddr input (opcodeFields .move { d := true, wlow := true, acc := true } b) c) := by
  have hw : (opcodeFields .move { d := true, wlow := true, acc := true } b).word = wLowBit b := by
    simp [opcodeFields, wordFlag]
  rw [← hw]
  refine (readAddr_agrees _ hc).map fun a rest ha => ?_
  obtain ⟨ha, _⟩ := takeSized_some ha
  simp [hi, ha, opcodeFields, revFlag]

/-- The flag-governed extraction of a row's fields is the list reader of the row's form: one case for each row with an
operation, in the order of the table (R55). -/
theorem extract_agrees {row : ClassRow} {op : Op} (hrow : classify b = some row) (hop : row.op = some op)
    (hc : c ≤ input.length) :
    Agrees input unmeasured (takeForm row.form b (input.drop c)) (extract input (opcodeFields op row.flags b) c) := by
  have hopcode := rebuiltOpcode_of_classify hrow
  obtain ⟨hmem, -⟩ := classify_eq_some_iff.mp hrow
  simp only [classTable, moveRows, segmentMoveRows, pushPopRows, List.cons_append, List.nil_append, List.mem_cons,
    List.not_mem_nil, or_false] at hmem
  rcases hmem with rfl | rfl | rfl | rfl | rfl | rfl | rfl | rfl | rfl | rfl | rfl | rfl | rfl <;> cases hop <;>
    simp only [extract, opcodeFields_flags, gated_true, gated_false, andThen_gated_false, andThen_some]
  · refine (readModRm_readDisp_agrees rfl hc).map (k := fun m => Instr.movRmR (dBit b) (wLowBit b) m.1 m.2) ?_
    intro m rest _
    simp [unmeasured, decodedRecord, recordMovRmR, opcodeFields, revFlag, wordFlag, withModRm, withCodes]
  · refine readData_after_readDisp_agrees ?_ rfl hc
    rw [← hopcode]
    exact (movRmImm_opcode _).2.2
  · have hw : (opcodeFields .move { w3 := true, regop := true, imm := true } b).word = w3Bit b := by
      simp [opcodeFields, wordFlag]
    unfold takeForm
    rw [← hw]
    refine (readData_agrees _ hc).map fun v rest hv => ?_
    obtain ⟨hv, _⟩ := takeSized_some hv
    simp [unmeasured, decodedRecord, recordMovRImm, hv, opcodeFields, revFlag]
  · have hd : dBit b = false := by
      rw [← hopcode]
      exact (movAccMem_opcode _).2.2
    exact readAddr_of_opcodeFields_agrees (fun a => by rw [hd]; rfl) hc
  · have hd : dBit b = true := by
      rw [← hopcode]
      exact (movMemAcc_opcode _).2.2
    exact readAddr_of_opcodeFields_agrees (fun a => by rw [hd]; rfl) hc
  · exact (readModRm_readDisp_agrees rfl hc).map (k := fun m => Instr.pushRm m.1 m.2) fun _ _ _ => rfl
  · exact .read (f := unmeasured) (.pushR (opcodeReg b)) hc
  · exact .read (f := unmeasured) (.pushSr (opcodeSeg b)) hc
  · exact (readModRm_readDisp_agrees rfl hc).map (k := fun m => Instr.popRm m.1 m.2) fun _ _ _ => rfl
  · exact .read (f := unmeasured) (.popR (opcodeReg b)) hc
  · exact .read (f := unmeasured) (.popSr (opcodeSeg b)) hc

/-- The two rows without an operation are the segment-register moves: nothing after the opcode byte is read, and there
is no record (R58). -/
theorem takeForm_of_row_without_op {row : ClassRow} (hrow : classify b = some row) (hop : row.op = none)
    (bs : List Byte) : ∃ i, takeForm row.form b bs = some (i, bs) ∧ decodedRecord i = none := by
  obtain ⟨hmem, -⟩ := classify_eq_some_iff.mp hrow
  have hseg : ∀ row ∈ classTable, row.op = none → row ∈ segmentMoveRows := by decide
  obtain rfl | rfl : row = ⟨.movSrRm, 0xFF, 0x8E, none, {}⟩ ∨ row = ⟨.movRmSr, 0xFF, 0x8C, none, {}⟩ := by
    simpa [segmentMoveRows] using hseg row hmem hop
  · exact ⟨.movSrRm, rfl, rfl⟩
  · exact ⟨.movRmSr, rfl, rfl⟩

end

/-- The length of the record is the length of the instruction's bytes. -/
theorem decodedRecord_len {i : Instr} {r : Record} (h : decodedRecord i = some r) : r.len = (encode i).length := by
  cases i with
  | movRmR d w reg rm => exact Laws.RecordLength.movRmR d w reg rm r h
  | movRmImm reg rm data => exact Laws.RecordLength.movRmImm reg rm data r h
  | movRImm reg data => exact Laws.RecordLength.movRImm reg data r h
  | movAccMem addr => exact Laws.RecordLength.movAccMem addr r h
  | movMemAcc addr => exact Laws.RecordLength.movMemAcc addr r h
  | movSrRm => exact Laws.RecordLength.movSrRm r h
  | movRmSr => exact Laws.RecordLength.movRmSr r h
  | pushRm reg rm => exact Laws.RecordLength.pushRm reg rm r h
  | pushR reg => exact Laws.RecordLength.pushR reg r h
  | pushSr code => exact Laws.RecordLength.pushSr code r h
  | popRm reg rm => exact Laws.RecordLength.popRm reg rm r h
  | popR reg => exact Laws.RecordLength.popR reg r h
  | popSr code => exact Laws.RecordLength.popSr code r h

/-! ## DecodeOne by the decode of the pending bytes -/

section
variable {input : List Byte} {cur : Nat}

/-- The clean end at the opcode position (R67). -/
theorem decodeOne_of_decode_endOfStream (h : decode (input.drop cur) = .endOfStream) :
    decodeOne input cur = (.endOfStream, cur) := by
  simp [decodeOne, nextByte_of_drop_nil (decode_eq_endOfStream_iff.mp h)]

/-- A byte that matches no row (R57). -/
theorem decodeOne_of_no_row {b : Byte} (hb : input[cur]? = some b) (h : classify b = none) :
    decodeOne input cur = (.err .unknown, cur + 1) := by
  simp [decodeOne, nextByte_of_some hb, h]

/-- A byte whose row has no operation (R58). -/
theorem decodeOne_of_row_without_op {b : Byte} {row : ClassRow} (hb : input[cur]? = some b)
    (h : classify b = some row) (hop : row.op = none) : decodeOne input cur = (.err .unimplemented, cur + 1) := by
  simp [decodeOne, nextByte_of_some hb, h, hop]

/-- A byte missing in steps 2 to 5 (R67). -/
theorem decodeOne_of_extract_none {b : Byte} {row : ClassRow} {op : Op} {c : Nat} (hb : input[cur]? = some b)
    (h : classify b = some row) (hop : row.op = some op)
    (he : extract input (opcodeFields op row.flags b) (cur + 1) = (none, c)) :
    decodeOne input cur = (.err .missingByte, c) := by
  simp [decodeOne, nextByte_of_some hb, h, hop, he]

/-- The extracted record, its length the advance of the cursor (R74). -/
theorem decodeOne_of_extract_some {b : Byte} {row : ClassRow} {op : Op} {c : Nat} {r : Record}
    (hb : input[cur]? = some b) (h : classify b = some row) (hop : row.op = some op)
    (he : extract input (opcodeFields op row.flags b) (cur + 1) = (some r, c)) :
    decodeOne input cur = (.instr { r with len := c - cur }, c) := by
  simp [decodeOne, nextByte_of_some hb, h, hop, he]

/-- Unknown and MissingByte, with the bytes that were delivered (R57, R67). -/
theorem decodeOne_of_decode_error {k : ErrorKind} {n : Nat} (h : decode (input.drop cur) = .error k n) :
    decodeOne input cur = (.err k, cur + n) := by
  rcases decode_error_cases h with ⟨rfl, rfl, b, tail, hd, hrow⟩ | ⟨rfl, rfl, b, tail, row, hd, hrow, hnone⟩
  · exact decodeOne_of_no_row (getElem?_of_drop_cons hd) hrow
  · have hlt := lt_length_of_drop_cons hd
    cases hop : row.op with
    | none =>
      obtain ⟨i, hi, _⟩ := takeForm_of_row_without_op hrow hop tail
      simp [hi] at hnone
    | some op =>
      have hagree := extract_agrees hrow hop hlt
      rw [drop_succ_of_drop_cons hd, hnone] at hagree
      generalize he : extract input (opcodeFields op row.flags b) (cur + 1) = e at hagree
      cases hagree
      rw [decodeOne_of_extract_none (getElem?_of_drop_cons hd) hrow hop he, List.length_drop]
      congr; omega

/-- A segment-register move (R58). -/
theorem decodeOne_of_decode_segmentMove {i : Instr} {rest : List Byte}
    (h : decode (input.drop cur) = .instr i rest) (hi : decodedRecord i = none) :
    decodeOne input cur = (.err .unimplemented, cur + 1) := by
  obtain ⟨-, hd⟩ := encode_of_decode h
  have hseg : i = .movSrRm ∨ i = .movRmSr := by cases i <;> simp [decodedRecord] at hi ⊢
  rcases hseg with rfl | rfl
  · exact decodeOne_of_row_without_op (getElem?_of_drop_cons hd) rfl rfl
  · exact decodeOne_of_row_without_op (getElem?_of_drop_cons hd) rfl rfl

/-- An instruction with a record: its record, and the cursor after its bytes (R60 to R66, R74). -/
theorem decodeOne_of_decode_instr {i : Instr} {rest : List Byte} {r : Record}
    (h : decode (input.drop cur) = .instr i rest) (hr : decodedRecord i = some r) :
    decodeOne input cur = (.instr r, cur + r.len) := by
  obtain ⟨b, tail, row, hd, hrow, htake⟩ := decode_instr_row h
  have hlt := lt_length_of_drop_cons hd
  cases hop : row.op with
  | none =>
    obtain ⟨j, hj, hnone⟩ := takeForm_of_row_without_op hrow hop tail
    rw [hj] at htake
    cases htake
    simp [hnone] at hr
  | some op =>
    have hagree := extract_agrees hrow hop hlt
    rw [drop_succ_of_drop_cons hd, htake] at hagree
    generalize he : extract input (opcodeFields op row.flags b) (cur + 1) = e at hagree
    cases hagree with
    | @read _ c hc =>
      have hlen := congrArg List.length (encode_of_decode h).2
      simp only [List.length_drop, List.length_append, ← decodedRecord_len hr] at hlen
      obtain rfl : c = cur + r.len := by omega
      rw [decodeOne_of_extract_some (getElem?_of_drop_cons hd) hrow hop he]
      simp [unmeasured, hr]

/-- Where DecodeOne hands over a record, the bytes from the cursor on are a well-formed instruction that has it. -/
theorem decode_of_decodeOne_instr {c : Nat} {r : Record} (h : decodeOne input cur = (.instr r, c)) :
    ∃ i rest, decode (input.drop cur) = .instr i rest ∧ decodedRecord i = some r ∧ c = cur + r.len := by
  cases hd : decode (input.drop cur) with
  | endOfStream => simp [decodeOne_of_decode_endOfStream hd] at h
  | error k n => simp [decodeOne_of_decode_error hd] at h
  | instr i rest =>
    cases hr : decodedRecord i with
    | none => simp [decodeOne_of_decode_segmentMove hd hr] at h
    | some r' =>
      obtain ⟨rfl, rfl⟩ : r' = r ∧ cur + r'.len = c := by simpa [decodeOne_of_decode_instr hd hr] using h
      exact ⟨i, rest, rfl, hr, rfl⟩

end

end Sys2Proof.Machine

/-! The statements about DecodeOne and the fields it reads (spec/30_encoding.md R57, R58, R63 to R67). -/

namespace Sys2Proof.Machine

/-! ## The end of the source and the errors of the opcode byte (R57, R58, R67) -/

/-- Settles O12: a proper beginning of an encoding decodes to MissingByte, and no bytes to the end of the stream. -/
theorem truncationIsMissingByte : Obligations.TruncationIsMissingByte := by
  refine ⟨fun i hwf part hpre hne hproper before => ?_, fun before => ?_⟩
  · apply decodeOne_of_decode_error
    rw [List.drop_left]
    exact decode_properPrefix hwf hpre hne hproper
  · apply decodeOne_of_decode_endOfStream
    rw [List.drop_length]
    rfl

/-- Settles O9: the byte has no row, so DecodeOne stops at it. -/
theorem unmatchedByteIsUnknown : Obligations.UnmatchedByteIsUnknown :=
  fun _ _ _ hb hunmatched => decodeOne_of_no_row hb (classify_of_not_matched hunmatched)

/-- Settles O11: the rows of the two bytes have no operation, so DecodeOne stops before the ModRM byte. -/
theorem segmentMoveIsUnimplemented : Obligations.SegmentMoveIsUnimplemented := by
  rintro input cur (hb | hb)
  · exact ⟨decodeOne_of_row_without_op hb rfl rfl, by decide⟩
  · exact ⟨decodeOne_of_row_without_op hb rfl rfl, by decide⟩

/-! ## The ModRM byte (R63) -/

/-- The ModRM byte as a number: MOD, REG, RM from the most significant bit down (R53). -/
theorem modRmByte_toNat : ∀ (mod : ModCode) (reg rm : RegCode),
    (modRmByte mod reg rm).toNat = 64 * mod.toNat + 8 * reg.toNat + rm.toNat := by
  decide

theorem eaFlag_eq_decide (mod : ModCode) : eaFlag mod = decide (mod.toNat < 3) := rfl

theorem directFlag_eq_decide : ∀ (mod : ModCode) (rm : RegCode),
    directFlag mod rm = decide (mod.toNat = 0 ∧ rm.toNat = 6) := by
  decide

/-- The record of an instruction either holds what its second byte, a ModRM byte, gives; or has no ModRM byte, and
then no code but the one in the opcode byte. -/
theorem decodedRecord_modRm {i : Instr} {r : Record} (h : decodedRecord i = some r) :
    (r.flags.modrm = true ∧ ∃ b reg rm tail, encode i = b :: (modRmBytes reg rm ++ tail) ∧ r.mod = rm.mod ∧
      r.reg = reg ∧ r.rm = rm.code ∧ r.ea = eaFlag rm.mod ∧ r.direct = directFlag rm.mod rm.code) ∨
    (r.flags.modrm = false ∧ r.mod = 0 ∧ r.rm = 0 ∧
      (r.flags.regop = false → r.flags.regdirect = false → r.reg = 0)) := by
  cases i with
  | movRmR d w reg rm =>
    cases h
    exact .inl ⟨rfl, _, reg, rm, [], by rw [List.append_nil]; rfl, rfl, rfl, rfl, rfl, rfl⟩
  | movRmImm reg rm data =>
    cases h
    exact .inl ⟨rfl, _, reg, rm, data.bytes, rfl, rfl, rfl, rfl, rfl, rfl⟩
  | pushRm reg rm =>
    cases h
    exact .inl ⟨rfl, _, reg, rm, [], by rw [List.append_nil]; rfl, rfl, rfl, rfl, rfl, rfl⟩
  | popRm reg rm =>
    cases h
    exact .inl ⟨rfl, _, reg, rm, [], by rw [List.append_nil]; rfl, rfl, rfl, rfl, rfl, rfl⟩
  | movAccMem addr => cases h; exact .inr ⟨rfl, rfl, rfl, fun _ _ => rfl⟩
  | movMemAcc addr => cases h; exact .inr ⟨rfl, rfl, rfl, fun _ _ => rfl⟩
  | movRImm reg data => cases h; exact .inr ⟨rfl, rfl, rfl, nofun⟩
  | pushR reg => cases h; exact .inr ⟨rfl, rfl, rfl, nofun⟩
  | popR reg => cases h; exact .inr ⟨rfl, rfl, rfl, nofun⟩
  | pushSr code => cases h; exact .inr ⟨rfl, rfl, rfl, nofun⟩
  | popSr code => cases h; exact .inr ⟨rfl, rfl, rfl, nofun⟩
  | movSrRm => cases h
  | movRmSr => cases h

/-- A row with a ModRM byte reads nothing where that byte is not there. -/
theorem takeForm_nil_of_modrm {b : Byte} : ∀ row ∈ classTable, row.flags.modrm = true →
    takeForm row.form b [] = none := by
  simp [classTable, moveRows, segmentMoveRows, pushPopRows, takeForm, takeModRm, takeByte]

/-- The bytes from the cursor on, one by one. -/
theorem drop_of_getElem?_some {input : List Byte} {c : Nat} {b : Byte} (h : input[c]? = some b) :
    input.drop c = b :: input.drop (c + 1) := by
  rw [List.drop_eq_getElem?_toList_append, h]; rfl

theorem drop_of_getElem?_none {input : List Byte} {c : Nat} (h : input[c]? = none) : input.drop c = [] :=
  List.drop_eq_nil_iff.mpr (List.getElem?_eq_none_iff.mp h)

/-- Settles O13: the bytes of a decoded record are its instruction's encoding, whose second byte is the ModRM byte of
the record's codes. -/
theorem modRmFields : Obligations.ModRmFields := by
  refine ⟨fun input cur c r h => ?_, fun input cur b row hb hrow hmodrm hnone => ?_⟩
  · obtain ⟨i, rest, hd, hr, -⟩ := decode_of_decodeOne_instr h
    obtain ⟨-, hbytes⟩ := encode_of_decode hd
    rcases decodedRecord_modRm hr with ⟨hflag, b, reg, rm, tail, henc, hmod, hreg, hrm, hea, hdirect⟩ | ⟨hflag, hcodes⟩
    · refine ⟨fun _ => ⟨modRmByte rm.mod reg rm.code, ?_, ?_⟩, fun hf => by simp [hflag] at hf⟩
      · rw [henc] at hbytes
        exact getElem?_of_drop_cons (drop_succ_of_drop_cons hbytes)
      · have := reg.isLt
        have := rm.code.isLt
        rw [modRmByte_toNat, hmod, hreg, hrm, hea, hdirect, eaFlag_eq_decide, directFlag_eq_decide]
        refine ⟨by omega, by omega, by omega, rfl, rfl⟩
    · exact ⟨fun ht => by simp [hflag] at ht, fun _ => hcodes⟩
  · apply decodeOne_of_decode_error
    rw [drop_of_getElem?_some hb, drop_of_getElem?_none hnone]
    obtain ⟨hmem, -⟩ := classify_eq_some_iff.mp hrow
    simp [decode, hrow, takeForm_nil_of_modrm row hmem hmodrm]

/-! ## Fields of one byte or two at the end of an instruction (R65, R66) -/

/-- The instructions `i v` consist of the bytes `first` and then a field of width `w`, which goes to `field`. -/
def EndsWithField (first : List Byte) (w : Bool) (field : Record → Word) (i : Sized → Instr) : Prop :=
  first ≠ [] ∧ ∀ v : Sized, v.isWord = w → (i v).wellFormed = true ∧ encode (i v) = first ++ v.bytes ∧
    ∃ r, decodedRecord (i v) = some r ∧ field r = v.value

section
variable {first rest input : List Byte} {w : Bool} {field : Record → Word} {i : Sized → Instr} {cur : Nat}

/-- With all its bytes there the field holds their value, and the cursor stands after them. -/
theorem EndsWithField.decodeOne_of_bytes (h : EndsWithField first w field i) {v : Sized} (hv : v.isWord = w)
    (hd : input.drop cur = first ++ (v.bytes ++ rest)) :
    ∃ r, decodeOne input cur = (.instr r, cur + first.length + v.bytes.length) ∧ field r = v.value := by
  obtain ⟨hwf, henc, r, hr, hfield⟩ := h.2 v hv
  have hdec : decode (input.drop cur) = .instr (i v) rest := by
    rw [hd, ← List.append_assoc, ← henc]
    exact decode_encode _ hwf rest
  refine ⟨r, ?_, hfield⟩
  rw [decodeOne_of_decode_instr hdec hr, decodedRecord_len hr, henc, List.length_append, Nat.add_assoc]

/-- With only some of its bytes there, and nothing after them, DecodeOne fails with those consumed. -/
theorem EndsWithField.decodeOne_of_missing (h : EndsWithField first w field i) {v : Sized} (hv : v.isWord = w)
    {part : List Byte} (hpre : part <+: v.bytes) (hproper : part ≠ v.bytes) (hd : input.drop cur = first ++ part) :
    decodeOne input cur = (.err .missingByte, cur + first.length + part.length) := by
  obtain ⟨hwf, henc, -⟩ := h.2 v hv
  have hdec : decode (input.drop cur) = .error .missingByte (input.drop cur).length := by
    rw [hd]
    exact decode_properPrefix hwf (henc ▸ (List.prefix_append_right_inj first).mpr hpre) (by simp [h.1])
      (by simpa [henc] using hproper)
  rw [decodeOne_of_decode_error hdec, hd, List.length_append, Nat.add_assoc]

/-- One byte at byte width, zero-extended; MissingByte where it is not there. -/
theorem EndsWithField.decodeOne_byte (h : EndsWithField first false field i) :
    (∀ lo, input.drop cur = first ++ lo :: rest →
      ∃ r, decodeOne input cur = (.instr r, cur + first.length + 1) ∧ (field r).toNat = lo.toNat) ∧
    (input.drop cur = first → decodeOne input cur = (.err .missingByte, cur + first.length)) := by
  refine ⟨fun lo hd => ?_, fun hd => ?_⟩
  · obtain ⟨r, hr, hfield⟩ := h.decodeOne_of_bytes (v := .byte lo) rfl hd
    exact ⟨r, hr, by rw [hfield]; exact zext16_toNat lo⟩
  · exact h.decodeOne_of_missing (v := .byte 0) (part := []) rfl List.nil_prefix (by simp [Sized.bytes])
      (by simpa using hd)

/-- Two bytes at word width, little-endian; MissingByte at the first of them that is not there. -/
theorem EndsWithField.decodeOne_word (h : EndsWithField first true field i) :
    (∀ lo hi, input.drop cur = first ++ lo :: hi :: rest →
      ∃ r, decodeOne input cur = (.instr r, cur + first.length + 2) ∧
        (field r).toNat = lo.toNat + 256 * hi.toNat) ∧
    (∀ lo, input.drop cur = first ++ [lo] → decodeOne input cur = (.err .missingByte, cur + first.length + 1)) ∧
    (input.drop cur = first → decodeOne input cur = (.err .missingByte, cur + first.length)) := by
  refine ⟨fun lo hi hd => ?_, fun lo hd => ?_, fun hd => ?_⟩
  · obtain ⟨r, hr, hfield⟩ := h.decodeOne_of_bytes (v := .word (le16 lo hi)) (rest := rest) rfl
      (by simpa [Sized.bytes, wordBytes] using hd)
    exact ⟨r, hr, by rw [hfield]; exact le16_toNat lo hi⟩
  · exact h.decodeOne_of_missing (v := .word (le16 lo 0)) (part := [lo]) rfl (by simp [Sized.bytes, wordBytes])
      (by simp [Sized.bytes, wordBytes]) hd
  · exact h.decodeOne_of_missing (v := .word 0) (part := []) rfl List.nil_prefix (by simp [Sized.bytes, wordBytes])
      (by simpa using hd)

end

theorem movRImm_endsWithField (w : Bool) (reg : RegCode) :
    EndsWithField [0b1011#4 ++ bit w ++ reg] w Record.data (Instr.movRImm reg) := by
  refine ⟨List.cons_ne_nil _ _, ?_⟩
  rintro v rfl
  exact ⟨rfl, rfl, _, rfl, rfl⟩

theorem movRmImm_endsWithField (w : Bool) (reg : RegCode) {rm : Rm} (hwf : rm.wellFormed = true) :
    EndsWithField ((0b1100011#7 ++ bit w) :: modRmBytes reg rm) w Record.data (Instr.movRmImm reg rm) := by
  refine ⟨List.cons_ne_nil _ _, ?_⟩
  rintro v rfl
  exact ⟨hwf, rfl, _, rfl, rfl⟩

theorem movAccMem_endsWithField (w : Bool) :
    EndsWithField [0b1010000#7 ++ bit w] w Record.addr Instr.movAccMem := by
  refine ⟨List.cons_ne_nil _ _, ?_⟩
  rintro v rfl
  exact ⟨rfl, rfl, _, rfl, rfl⟩

theorem movMemAcc_endsWithField (w : Bool) :
    EndsWithField [0b1010001#7 ++ bit w] w Record.addr Instr.movMemAcc := by
  refine ⟨List.cons_ne_nil _ _, ?_⟩
  rintro v rfl
  exact ⟨rfl, rfl, _, rfl, rfl⟩

/-- Settles O16: both rows end with their data, whose width is that of the opcode byte. -/
theorem immediateDataField : Obligations.ImmediateDataField := by
  intro before first rest w hfirst input cur data
  have hends : ∃ i, EndsWithField first w Record.data i := by
    rcases hfirst with ⟨reg, rfl⟩ | ⟨reg, rm, hwf, rfl⟩
    · exact ⟨_, movRImm_endsWithField w reg⟩
    · exact ⟨_, movRmImm_endsWithField w reg hwf⟩
  obtain ⟨i, hends⟩ := hends
  have hd : input.drop cur = first ++ rest := by simp [input, cur]
  refine ⟨?_, ?_⟩
  · rintro rfl
    rcases rest with _ | ⟨lo, rest⟩
    · exact (hends.decodeOne_byte (rest := [])).2 (by simpa using hd)
    · exact hends.decodeOne_byte.1 lo hd
  · rintro rfl
    rcases rest with _ | ⟨lo, _ | ⟨hi, rest⟩⟩
    · exact (hends.decodeOne_word (rest := [])).2.2 (by simpa using hd)
    · exact (hends.decodeOne_word (rest := [])).2.1 lo hd
    · exact hends.decodeOne_word.1 lo hi hd

/-- Settles O15: the four accumulator moves end with their address, whose width is bit 0 of the opcode byte. -/
theorem accumulatorAddressField : Obligations.AccumulatorAddressField := by
  intro input cur b hb
  have hd := drop_of_getElem?_some hb
  refine ⟨fun hbyte => ?_, fun hword => ?_⟩
  · have hends : ∃ i, EndsWithField [b] false Record.addr i := by
      rcases hbyte with rfl | rfl
      · exact ⟨_, movAccMem_endsWithField false⟩
      · exact ⟨_, movMemAcc_endsWithField false⟩
    obtain ⟨i, hends⟩ := hends
    cases h1 : input[cur + 1]? with
    | none => exact (hends.decodeOne_byte (rest := [])).2 (by rw [hd, drop_of_getElem?_none h1])
    | some lo => exact hends.decodeOne_byte.1 lo (by rw [hd, drop_of_getElem?_some h1]; rfl)
  · have hends : ∃ i, EndsWithField [b] true Record.addr i := by
      rcases hword with rfl | rfl
      · exact ⟨_, movAccMem_endsWithField true⟩
      · exact ⟨_, movMemAcc_endsWithField true⟩
    obtain ⟨i, hends⟩ := hends
    cases h1 : input[cur + 1]? with
    | none => exact (hends.decodeOne_word (rest := [])).2.2 (by rw [hd, drop_of_getElem?_none h1])
    | some lo =>
      rw [drop_of_getElem?_some h1] at hd
      cases h2 : input[cur + 2]? with
      | none => exact (hends.decodeOne_word (rest := [])).2.1 lo (by rw [hd, drop_of_getElem?_none h2]; rfl)
      | some hi => exact hends.decodeOne_word.1 lo hi (by rw [hd, drop_of_getElem?_some h2]; rfl)

end Sys2Proof.Machine

/-! What a turn reads: DecodeOne is a function of the source and the cursor, and the turn that completes it reads the
setting besides, so nothing an earlier instruction left has a part in it (spec/30_encoding.md R75,
spec/70_reset_and_hazards.md R148). -/

namespace Sys2Proof.Machine

/-! ## The meaning of an instruction by its record -/

section
variable {i : Instr} {r : Record}

theorem exec_of_no_record (hr : decodedRecord i = none) (s : State) : exec i s = .next (fail .unimplemented 1 s) := by
  rcases exec_cases i s with ⟨r', hr', -, -⟩ | ⟨r', hr', -, -⟩ | ⟨-, he⟩
  · simp [hr] at hr'
  · simp [hr] at hr'
  · exact he

theorem exec_of_move (hr : decodedRecord i = some r) (hop : r.op = .move) (s : State) :
    exec i s = .next (printMove r s) := by
  rcases exec_cases i s with ⟨r', hr', -, he⟩ | ⟨r', hr', hop', -⟩ | ⟨hr', -⟩
  · obtain rfl : r = r' := Option.some.inj (hr.symm.trans hr')
    exact he
  · obtain rfl : r = r' := Option.some.inj (hr.symm.trans hr')
    exact absurd hop hop'
  · simp [hr] at hr'

theorem exec_of_pushPop (hr : decodedRecord i = some r) (hop : r.op ≠ .move) (s : State) :
    exec i s = .next (printPushPop r s) := by
  rcases exec_cases i s with ⟨r', hr', hop', -⟩ | ⟨r', hr', -, he⟩ | ⟨hr', -⟩
  · obtain rfl : r = r' := Option.some.inj (hr.symm.trans hr')
    exact absurd hop' hop
  · obtain rfl : r = r' := Option.some.inj (hr.symm.trans hr')
    exact he
  · simp [hr] at hr'

end

theorem printPushPop_of_refuse {r : Record} {s : State} (h : pushPopRender s.pushPop (resolve r) = none) :
    printPushPop r s = refusePass (advance r s) := by
  simp [printPushPop, h]

theorem printPushPop_of_line {r : Record} {s : State} {line : Text}
    (h : pushPopRender s.pushPop (resolve r) = some line) : printPushPop r s = emitLine line (advance r s) := by
  simp [printPushPop, h]

/-! ## Uniform turns -/

/-- A turn that reads nothing of the state but what `P` fixes: the record, cursor and status that it ends with and the
line that it appends are the same from every state that meets `P`. -/
def UniformTurn (P : State → Prop) (turn : State → Host.Outcome State Fault Refusal) : Prop :=
  ∃ (record : Record) (cur : Nat) (status : Status) (line : Text), ∀ s, P s →
    turn s = .next { s with record := record, cur := cur, status := status, out := s.out ++ line }

/-- The meaning of an instruction reads the cursor, the status and the setting only. -/
theorem exec_uniformTurn (i : Instr) (cur : Nat) (status : Status) (setting : PushPopSetting) :
    UniformTurn (fun s => s.cur = cur ∧ s.status = status ∧ s.pushPop = setting) (exec i) := by
  cases hr : decodedRecord i with
  | none =>
    refine ⟨Record.zero, cur + 1, .failed .unimplemented, [], ?_⟩
    rintro s ⟨rfl, -, -⟩
    simp [exec_of_no_record hr, fail]
  | some r =>
    by_cases hop : r.op = .move
    · refine ⟨Record.zero, cur + r.len, status, render r, ?_⟩
      rintro s ⟨rfl, rfl, -⟩
      rw [exec_of_move hr hop]
      rfl
    · cases hline : pushPopRender setting (resolve r) with
      | none =>
        refine ⟨resolve r, cur + r.len, .refused, [], ?_⟩
        rintro s ⟨rfl, -, rfl⟩
        simp [exec_of_pushPop hr hop, printPushPop_of_refuse hline, refusePass, advance]
      | some line =>
        refine ⟨Record.zero, cur + r.len, status, line, ?_⟩
        rintro s ⟨rfl, rfl, rfl⟩
        rw [exec_of_pushPop hr hop, printPushPop_of_line hline]
        rfl

/-- At the top of the driver's loop the turn reads the source, the cursor and the setting only. -/
theorem step_uniformTurn (input : List Byte) (cur : Nat) (setting : PushPopSetting) :
    UniformTurn (fun s => s.AtDecode ∧ s.input = input ∧ s.cur = cur ∧ s.pushPop = setting) step := by
  cases hd : decode (input.drop cur) with
  | endOfStream =>
    refine ⟨Record.zero, cur, .done, [], ?_⟩
    rintro s ⟨hs, rfl, rfl, -⟩
    simp [step, nextTurn_of_atDecode hs, pendingBytes, hd, turnOf, endPass]
  | error k n =>
    refine ⟨Record.zero, cur + n, .failed k, [], ?_⟩
    rintro s ⟨hs, rfl, rfl, -⟩
    simp [step, nextTurn_of_atDecode hs, pendingBytes, hd, turnOf, fail]
  | instr i rest =>
    obtain ⟨record, cur', status, line, hexec⟩ := exec_uniformTurn i cur .running setting
    refine ⟨record, cur', status, line, ?_⟩
    rintro s ⟨hs, rfl, rfl, rfl⟩
    rw [← hexec s ⟨rfl, hs.1, rfl⟩]
    simp [step, nextTurn_of_atDecode hs, pendingBytes, hd, turnOf]

/-- Settles O47: DecodeOne by its own definition, the turn because it is uniform in all but source, cursor and
setting. -/
theorem noStaleState : Obligations.NoStaleState := by
  intro s t hinput hcur
  have hdecode : decodeOne s.input s.cur = decodeOne t.input t.cur := by rw [hinput, hcur]
  refine ⟨by simp only [callDecodeOne, hdecode], by simp only [callDecodeOne, hdecode],
    by simp only [callDecodeOne, hdecode], ?_⟩
  intro hs ht hsetting
  obtain ⟨record, cur, status, line, hturn⟩ := step_uniformTurn t.input t.cur t.pushPop
  exact ⟨record, cur, status, line, hturn s ⟨hs, hinput, hcur, hsetting⟩, hturn t ⟨ht, rfl, rfl, rfl⟩⟩

end Sys2Proof.Machine

/-! The ends of a pass: the turn that ends it cleanly, the turn on which DecodeOne fails, and what stays after either
(spec/43_translation_driver.md R116, R117, R120). -/

namespace Sys2Proof.Machine

/-! ## The turns that emit the header and that end a pass -/

section
variable {s t : State}

theorem step_of_no_text (hs : s.status = .running) (ho : s.out = []) : step s = .next (emitHeader s) := by
  simp [step, nextTurn_of_no_text hs ho]

theorem step_of_pendingBytes_nil (hs : s.AtDecode) (h : pendingBytes s = []) : step s = .next (endPass s) := by
  simp [step, nextTurn_of_atDecode hs, decode_eq_endOfStream_iff.mpr h, turnOf]

/-- A failure of DecodeOne is the failure of the turn, whether the decoder or the instruction's own meaning finds it. -/
theorem step_of_decodeOne_err {k : ErrorKind} {c : Nat} (hs : s.AtDecode)
    (h : decodeOne s.input s.cur = (.err k, c)) :
    step s = .next { s with record := Record.zero, cur := c, status := .failed k } := by
  cases hd : decode (s.input.drop s.cur) with
  | endOfStream => simp [decodeOne_of_decode_endOfStream hd] at h
  | error k' n =>
    obtain ⟨rfl, rfl⟩ : k' = k ∧ s.cur + n = c := by simpa [decodeOne_of_decode_error hd] using h
    simp [step, nextTurn_of_atDecode hs, pendingBytes, hd, turnOf, fail]
  | instr i rest =>
    cases hr : decodedRecord i with
    | none =>
      obtain ⟨rfl, rfl⟩ : ErrorKind.unimplemented = k ∧ s.cur + 1 = c := by
        simpa [decodeOne_of_decode_segmentMove hd hr] using h
      simp [step, nextTurn_of_atDecode hs, pendingBytes, hd, turnOf, exec_of_no_record hr, fail]
    | some r => simp [decodeOne_of_decode_instr hd hr] at h

/-! ## The only way to Done -/

/-- No instruction ends a pass as Done: it prints a line, is refused, or fails. -/
theorem exec_status_ne_done {i : Instr} (hs : s.status ≠ .done) (h : exec i s = .next t) : t.status ≠ .done := by
  rcases exec_cases i s with ⟨r, -, -, he⟩ | ⟨r, -, -, he⟩ | ⟨-, he⟩ <;>
    obtain rfl := Host.Outcome.next.inj (he.symm.trans h)
  · simpa using hs
  · rcases printPushPop_cases r s with ⟨-, hp⟩ | ⟨line, -, hp⟩
    · simp [hp]
    · simpa [hp] using hs
  · simp

/-- A running pass becomes Done by the clean end alone (R116). -/
theorem eq_endPass_of_step_done (hs : s.status = .running) (h : step s = .next t) (ht : t.status = .done) :
    s.AtDecode ∧ pendingBytes s = [] ∧ t = endPass s := by
  rcases step_cases s with ⟨hterm, -⟩ | ⟨-, -, he⟩ | ⟨ha, hd, he⟩ | ⟨k, n, -, -, he⟩ | ⟨i, rest, -, -, he⟩
  · simp [hs, Status.terminal] at hterm
  · obtain rfl := Host.Outcome.next.inj (he.symm.trans h)
    simp [hs] at ht
  · exact ⟨ha, decode_eq_endOfStream_iff.mp hd, (Host.Outcome.next.inj (he.symm.trans h)).symm⟩
  · obtain rfl := Host.Outcome.next.inj (he.symm.trans h)
    simp at ht
  · exact absurd ht (exec_status_ne_done (by simp [hs]) (he.symm.trans h))

/-! ## What a state at decode has consumed, and what stays after the end -/

/-- At the top of the loop the invariant of a pass has no other case than that of its printed lines. -/
theorem PassInv.printed (h : PassInv s) (hs : s.AtDecode) : ∃ is, Printed s is :=
  h.resolve_left fun hstart => hs.2 hstart.1

theorem step_of_terminal (h : s.status.terminal = true) : step s = .next s := by
  simp [step, nextTurn_of_terminal h]

theorem runSteps_of_terminal (h : s.status.terminal = true) (n : Nat) : runSteps n s = s := by
  induction n with
  | zero => rfl
  | succ n ih => rw [runSteps_succ_of_next (step_of_terminal h), ih]

end

/-! ## A pass over an empty source -/

/-- Over an empty source the two turns of a pass are the header and the clean end (R120). -/
theorem runSteps_two_of_empty (setting : PushPopSetting) :
    runSteps 2 (startPass [] setting) = endPass (emitHeader (startPass [] setting)) := by
  have hend : step (emitHeader (startPass [] setting)) = .next (endPass (emitHeader (startPass [] setting))) :=
    step_of_pendingBytes_nil ⟨rfl, by simp [header]⟩ rfl
  rw [runSteps_succ_of_next (step_of_no_text rfl rfl), runSteps_succ_of_next hend, runSteps]

/-! ## The statements -/

/-- Settles O41: the step to Done is the clean end, where nothing is pending; so the bytes that the pass invariant
counts as consumed are the whole source. -/
theorem cleanEnd : Obligations.CleanEnd := by
  refine ⟨fun s hs hcur => ⟨endPass s, step_of_pendingBytes_nil hs ?_, rfl, rfl, rfl⟩, ?_⟩
  · simp [pendingBytes, hcur]
  · intro s t hinv hs hstep ht
    obtain ⟨ha, hpending, rfl⟩ := eq_endPass_of_step_done hs hstep ht
    obtain ⟨is, hwf, ⟨lines, hlines, hout⟩, hle, tail, htake, htail⟩ := hinv.printed ha
    have hcur : s.cur = s.input.length := eq_length_of_drop_nil hle hpending
    have htail_nil : tail = [] := by simpa [TailMatches, hs] using htail
    have hinput : s.input = (is.map encode).flatten := by simpa [hcur, htail_nil] using htake
    exact ⟨hcur, hcur, is, lines, hwf, hinput, hlines, hout⟩

/-- Settles O42: the failing turn leaves a terminal status, and a terminal state stays. -/
theorem failureStopsPass : Obligations.FailureStopsPass := by
  intro s k c hs h
  exact ⟨_, step_of_decodeOne_err hs h, rfl, rfl, fun n => by rw [runSteps_of_terminal rfl]; exact ⟨rfl, rfl⟩⟩

/-- Settles O57: the first pass leaves the source empty, so both passes are the same run. -/
theorem emptyInputTwice : Obligations.EmptyInputTwice := by
  intro setting first second
  have hfirst : first = endPass (emitHeader (startPass [] setting)) := runSteps_two_of_empty setting
  have hinput : first.input = [] := by rw [hfirst]; rfl
  have hsecond : second = first := congrArg (fun input => runSteps 2 (startPass input setting)) hinput
  rw [hsecond, hfirst]
  exact ⟨rfl, rfl, rfl, rfl, rfl, rfl⟩

end Sys2Proof.Machine

/-! No return from the end of a pass (spec/60_exceptions.md R133). -/

namespace Sys2Proof.Machine

/-- Settles O44: Failed is terminal, and steps from a terminal state change nothing; a new pass takes from its caller
the source and the setting only, and every other field from reset. -/
theorem noReturnFromTheEnd : Obligations.NoReturnFromTheEnd := by
  refine ⟨fun s k n hs => ?_, fun input setting => ⟨rfl, rfl, rfl, rfl, rfl⟩⟩
  have hterm : s.status.terminal = true := by rw [hs, Status.terminal]
  rw [runSteps_of_terminal hterm]
  exact ⟨hs, rfl, rfl⟩

end Sys2Proof.Machine

/-! The record is fresh at every decode (spec/70_reset_and_hazards.md R140). -/

namespace Sys2Proof.Machine

/-- The stored displacement is zero where MOD and RM call for no byte after the ModRM byte (R64). -/
theorem rmDisp_eq_zero {rm : Rm} (hdirect : directFlag rm.mod rm.code = false) (h1 : rm.mod ≠ 1) (h2 : rm.mod ≠ 2) :
    rm.disp = 0 := by
  cases rm with
  | mem _ => rfl
  | reg _ => rfl
  | direct _ => cases hdirect
  | mem8 _ _ => exact absurd rfl h1
  | mem16 _ _ => exact absurd rfl h2

/-- A record with a ModRM byte gets its operand fields from that operand alone; a record without one has the zero
values that `decodedRecord_modRm` does not speak of. -/
theorem decodedRecord_operandFields {i : Instr} {r : Record} (h : decodedRecord i = some r) :
    (r.flags.modrm = true ∧ ∃ base reg rm, r = withModRm base reg rm) ∨
      (r.flags.modrm = false ∧ r.ea = false ∧ r.direct = false ∧ r.disp = 0) := by
  cases i with
  | movRmR | movRmImm | pushRm | popRm =>
    cases h
    exact .inl ⟨rfl, _, _, _, rfl⟩
  | movRImm | movAccMem | movMemAcc | pushR | pushSr | popR | popSr =>
    cases h
    exact .inr ⟨rfl, rfl, rfl, rfl⟩
  | movSrRm | movRmSr => cases h

/-- The fields that have nothing to do with the ModRM byte are zero unless a flag of the record gates their writing,
and no decode resolves the slots. -/
theorem decodedRecord_gatedFields {i : Instr} {r : Record} (h : decodedRecord i = some r) :
    (r.flags.acc = false → r.addr = 0) ∧ (r.flags.imm = false → r.data = 0) ∧
      (r.flags.d = false → r.rev = false) ∧ (r.flags.wlow = false → r.flags.w3 = false → r.word = false) ∧
      r.dst = none ∧ r.src = none := by
  cases i with
  | movRmR => cases h; exact ⟨fun _ => rfl, fun _ => rfl, nofun, nofun, rfl, rfl⟩
  | movRmImm => cases h; exact ⟨fun _ => rfl, nofun, nofun, nofun, rfl, rfl⟩
  | movRImm => cases h; exact ⟨fun _ => rfl, nofun, fun _ => rfl, nofun, rfl, rfl⟩
  | movAccMem | movMemAcc => cases h; exact ⟨nofun, fun _ => rfl, nofun, nofun, rfl, rfl⟩
  | pushRm | pushR | pushSr | popRm | popR | popSr =>
    cases h
    exact ⟨fun _ => rfl, fun _ => rfl, fun _ => rfl, fun _ _ => rfl, rfl, rfl⟩
  | movSrRm | movRmSr => cases h

/-- Settles O17: a decoded record is that of a decoded instruction, and such a record has zero in every field that
its flags do not gate in. -/
theorem freshRecord : Obligations.FreshRecord := by
  refine ⟨rfl, fun input cur c r h => ?_⟩
  obtain ⟨i, rest, -, hr, -⟩ := decode_of_decodeOne_instr h
  have hgated := decodedRecord_gatedFields hr
  rcases decodedRecord_operandFields hr with ⟨hflag, base, reg, rm, rfl⟩ | ⟨hflag, hea, hdirect, hdisp⟩
  · have habsent {p : Prop} (hf : (withModRm base reg rm).flags.modrm = false) : p :=
      nomatch hflag.symm.trans hf
    exact ⟨habsent, habsent, fun _ => rmDisp_eq_zero, hgated⟩
  · obtain ⟨ht, -⟩ | ⟨-, hmod, hrm, hreg⟩ := decodedRecord_modRm hr
    · exact nomatch ht.symm.trans hflag
    · exact ⟨fun _ => ⟨hmod, hrm, hea, hdirect, hdisp⟩, fun _ => hreg, fun _ _ _ _ => hdisp, hgated⟩

end Sys2Proof.Machine

/-! The decoder and the encoder, the length of an instruction, and the flag-governed DecodeOne beside the decoder by
forms (spec/30_encoding.md sections 1 to 4 and 6). -/

namespace Sys2Proof.Machine

/-! ## Decode and encode -/

/-- Settles O4: every field reader reads back the bytes that the encoder wrote for its field. -/
theorem decodeOfEncode : Obligations.DecodeOfEncode := decode_encode

/-- Settles O5: the row of the first byte rebuilds that byte, and the field readers drop nothing of the others. -/
theorem encodeOfDecode : Obligations.EncodeOfDecode := fun _ _ _ h => encode_of_decode h

/-- Settles O2: of two rows that accept a byte each is the one the classifier gives; the 62 bytes are counted. -/
theorem classifierRowsDisjoint : Obligations.ClassifierRowsDisjoint := by
  refine ⟨fun b r₁ h₁ r₂ h₂ hacc₁ hacc₂ => ?_, by decide⟩
  have hsame : some r₁ = some r₂ := (classify_of_accepts h₁ hacc₁).symm.trans (classify_of_accepts h₂ hacc₂)
  exact Option.some.inj hsame

/-- Settles O3 by evaluation of the decoder on the ten words. -/
theorem specWordsDecode : Obligations.SpecWordsDecode := by
  unfold Obligations.SpecWordsDecode
  decide

/-- Settles O8: the three answers of the decoder by forms, each with what DecodeOne gives for it. -/
theorem decodeOneAgreesWithForms : Obligations.DecodeOneAgreesWithForms := by
  intro input cur
  cases hd : decode (input.drop cur) with
  | endOfStream => exact decodeOne_of_decode_endOfStream hd
  | error k n => exact decodeOne_of_decode_error hd
  | instr i rest =>
    cases hr : decodedRecord i with
    | none => simpa [hr] using decodeOne_of_decode_segmentMove hd hr
    | some r => simpa [hr] using decodeOne_of_decode_instr hd hr

/-! ## The length of an instruction (R69) -/

/-- A well-formed operand with a base has another code than the direct address (R63). -/
theorem code_ne_of_wellFormed {c : RegCode} (h : (Rm.mem c).wellFormed = true) : c ≠ 6#3 := by
  simpa [Rm.wellFormed] using h

/-- Of the well-formed operands only the direct address is in direct-address mode (R63). -/
theorem directFlag_mod_code {rm : Rm} (h : rm.wellFormed = true) : directFlag rm.mod rm.code = rmIsDirect rm := by
  cases rm with
  | mem c => simp [Rm.mod, Rm.code, directFlag, rmIsDirect, code_ne_of_wellFormed h]
  | reg | direct | mem8 | mem16 => rfl

/-- The bytes after the ModRM byte are as many as MOD and RM say (R64). -/
theorem extraBytes_length {rm : Rm} (h : rm.wellFormed = true) :
    rm.extraBytes.length =
      if directFlag rm.mod rm.code then 2 else if rm.mod = 1 then 1 else if rm.mod = 2 then 2 else 0 := by
  rw [directFlag_mod_code h]
  cases rm <;> rfl

/-- A sized field has as many bytes as its width says (R65, R66). -/
theorem sizedBytes_length_eq (v : Sized) : v.bytes.length = if v.isWord then 2 else 1 := by
  cases v <;> rfl

@[simp] theorem modRmBytes_length (reg : RegCode) (rm : Rm) :
    (modRmBytes reg rm).length = 1 + rm.extraBytes.length := by
  rw [modRmBytes, List.length_cons, Nat.add_comm]

/-- An encoding has as many bytes as the flags, MOD and the width of its record say; a segment-register move has no
record, and its one byte is what the zero record gives (R69). -/
theorem encode_length {i : Instr} (h : i.wellFormed = true) : (encode i).length = lengthFormula (unmeasured i) := by
  cases i with
  | movRmR d w reg rm | pushRm reg rm | popRm reg rm =>
    simp [encode, extraBytes_length h, lengthFormula, unmeasured, decodedRecord, recordMovRmR, recordPushRm,
      recordPopRm]
    omega
  | movRmImm reg rm data =>
    simp [encode, extraBytes_length h, sizedBytes_length_eq, lengthFormula, unmeasured, decodedRecord, recordMovRmImm]
    omega
  | movRImm _ v | movAccMem v | movMemAcc v => cases v <;> rfl
  | movSrRm | movRmSr | pushR | pushSr | popR | popSr => rfl

/-- An instruction is one to six bytes long. -/
theorem encode_length_bounds (i : Instr) : 1 ≤ (encode i).length ∧ (encode i).length ≤ 6 := by
  cases i with
  | movRmR d w reg rm | pushRm reg rm | popRm reg rm =>
    have hrm := Laws.extraBytes_length_le rm
    simp only [encode, List.length_cons, modRmBytes_length]
    omega
  | movRmImm reg rm data =>
    have hrm := Laws.extraBytes_length_le rm
    have hdata := Laws.sizedBytes_length data
    simp only [encode, List.length_cons, List.length_append, modRmBytes_length]
    omega
  | movRImm _ v | movAccMem v | movMemAcc v =>
    have hv := Laws.sizedBytes_length v
    simp only [encode, List.length_cons]
    omega
  | movSrRm | movRmSr | pushR | pushSr | popR | popSr => exact ⟨Nat.le_refl 1, Nat.le_of_ble_eq_true rfl⟩

/-- Settles O6: bounds, the record's length, and the formula over the record. -/
theorem lengthOneToSix : Obligations.LengthOneToSix := by
  intro i
  obtain ⟨hlower, hupper⟩ := encode_length_bounds i
  refine ⟨hlower, hupper, fun r hr => ⟨decodedRecord_len hr, fun hwf => ?_⟩⟩
  have hformula := encode_length hwf
  rw [decodedRecord_len hr, hformula, unmeasured, hr]
  rfl

/-! ## What the first two bytes say of the record -/

/-- The flags and the width that an opcode byte gives, where it has a row (R55, R60). -/
def opcodeWidth (b : Byte) : Option (LayoutFlags × Bool) :=
  (classify b).map fun row => (row.flags, wordFlag row.flags b)

/-- The flags and the width of a record are those that the first byte gives. -/
theorem opcodeWidth_of_encode {i : Instr} {b : Byte} {tail : List Byte} (h : encode i = b :: tail) :
    opcodeWidth b = some ((unmeasured i).flags, (unmeasured i).word) := by
  cases i with
  | movRmR d w reg rm =>
    have hbyte : ∀ d w : Bool, opcodeWidth (0b100010#6 ++ bit d ++ bit w) =
        some ({ d := true, wlow := true, modrm := true }, w) := by decide
    cases h; exact hbyte d w
  | movRmImm reg rm data =>
    have hbyte : ∀ w : Bool, opcodeWidth (0b1100011#7 ++ bit w) =
        some ({ d := true, wlow := true, modrm := true, imm := true }, w) := by decide
    cases h; exact hbyte data.isWord
  | movRImm reg data =>
    have hbyte : ∀ (w : Bool) (reg : RegCode), opcodeWidth (0b1011#4 ++ bit w ++ reg) =
        some ({ w3 := true, regop := true, imm := true }, w) := by decide
    cases h; exact hbyte data.isWord reg
  | movAccMem addr =>
    have hbyte : ∀ w : Bool, opcodeWidth (0b1010000#7 ++ bit w) =
        some ({ d := true, wlow := true, acc := true }, w) := by decide
    cases h; exact hbyte addr.isWord
  | movMemAcc addr =>
    have hbyte : ∀ w : Bool, opcodeWidth (0b1010001#7 ++ bit w) =
        some ({ d := true, wlow := true, acc := true }, w) := by decide
    cases h; exact hbyte addr.isWord
  | pushR reg =>
    have hbyte : ∀ reg : RegCode, opcodeWidth (0b01010#5 ++ reg) = some ({ regop := true }, false) := by decide
    cases h; exact hbyte reg
  | pushSr code =>
    have hbyte : ∀ code : RegCode, opcodeWidth (0b00#2 ++ code ++ 0b110#3) =
        some ({ regdirect := true }, false) := by decide
    cases h; exact hbyte code
  | popR reg =>
    have hbyte : ∀ reg : RegCode, opcodeWidth (0b01011#5 ++ reg) = some ({ regop := true }, false) := by decide
    cases h; exact hbyte reg
  | popSr code =>
    have hbyte : ∀ code : RegCode, opcodeWidth (0b00#2 ++ code ++ 0b111#3) =
        some ({ regdirect := true }, false) := by decide
    cases h; exact hbyte code
  | movSrRm | movRmSr | pushRm | popRm => cases h; rfl

/-- A record with a ModRM byte is made from an operand whose ModRM byte is the instruction's second byte and whose
other bytes follow it; the operand is well-formed where the instruction is. -/
theorem decodedRecord_operand {i : Instr} {r : Record} (h : decodedRecord i = some r) (hflag : r.flags.modrm = true) :
    ∃ base b reg rm tail, r = withModRm base reg rm ∧ encode i = b :: (modRmBytes reg rm ++ tail) ∧
      i.wellFormed = rm.wellFormed := by
  cases i with
  | movRmR d w reg rm | pushRm reg rm | popRm reg rm =>
    cases h
    exact ⟨_, _, reg, rm, [], rfl, by rw [List.append_nil]; rfl, rfl⟩
  | movRmImm reg rm data =>
    cases h
    exact ⟨_, _, reg, rm, data.bytes, rfl, rfl, rfl⟩
  | movRImm | movAccMem | movMemAcc | pushR | pushSr | popR | popSr => cases h; cases hflag
  | movSrRm | movRmSr => cases h

/-- Where the flags call for a ModRM byte, it is the second byte and fixes MOD and DIRECT (R63). -/
theorem unmeasured_modRm {i : Instr} (hflag : (unmeasured i).flags.modrm = true) :
    ∃ b m tail, encode i = b :: m :: tail ∧ (unmeasured i).mod = modField m ∧
      (unmeasured i).direct = directFlag (modField m) (rmField m) := by
  cases hr : decodedRecord i with
  | none => simp [unmeasured, hr, Record.zero] at hflag
  | some r =>
    obtain ⟨base, b, reg, rm, tail, rfl, henc, -⟩ :=
      decodedRecord_operand hr (by simpa [unmeasured, hr] using hflag)
    exact ⟨b, modRmByte rm.mod reg rm.code, rm.extraBytes ++ tail, henc, by simp [unmeasured, hr],
      by simp [unmeasured, hr]⟩

/-- Where they call for none, there is no direct address. -/
theorem unmeasured_direct_of_no_modRm {i : Instr} (hflag : (unmeasured i).flags.modrm = false) :
    (unmeasured i).direct = false := by
  cases i with
  | movRmR | movRmImm | pushRm | popRm => cases hflag
  | movRImm | movAccMem | movMemAcc | movSrRm | movRmSr | pushR | pushSr | popR | popSr => rfl

/-- Settles O7: by the formula the length follows from the flags and the width, which the first byte fixes, and from MOD
and DIRECT where there is a ModRM byte, which is the second. -/
theorem lengthFromFirstTwoBytes : Obligations.LengthFromFirstTwoBytes := by
  intro i j hi hj htake
  rw [encode_length hi, encode_length hj]
  obtain ⟨b, ti, hbi⟩ := List.exists_cons_of_length_pos (encode_length_bounds i).1
  obtain ⟨b', tj, hbj⟩ := List.exists_cons_of_length_pos (encode_length_bounds j).1
  obtain ⟨rfl, -⟩ : b = b' ∧ _ := by simpa [hbi, hbj] using htake
  have hopcode := (opcodeWidth_of_encode hbi).symm.trans (opcodeWidth_of_encode hbj)
  obtain ⟨hflags, hword⟩ : (unmeasured i).flags = (unmeasured j).flags ∧ (unmeasured i).word = (unmeasured j).word := by
    simpa using hopcode
  cases hmodrm : (unmeasured j).flags.modrm with
  | true =>
    obtain ⟨bi, mi, ti, hci, hmodi, hdirecti⟩ := unmeasured_modRm (hflags ▸ hmodrm)
    obtain ⟨bj, mj, tj, hcj, hmodj, hdirectj⟩ := unmeasured_modRm hmodrm
    obtain ⟨-, rfl⟩ : bi = bj ∧ mi = mj := by simpa [hci, hcj] using htake
    simp only [lengthFormula, hflags, hword, hmodi, hdirecti, hmodj, hdirectj]
  | false =>
    have hdirecti := unmeasured_direct_of_no_modRm (hflags ▸ hmodrm)
    have hdirectj := unmeasured_direct_of_no_modRm hmodrm
    simp [lengthFormula, hflags, hword, hdirecti, hdirectj, hmodrm]

/-! ## The displacement and the shape of a decoded record -/

/-- A byte as a two's-complement number (R93). -/
theorem byte_toInt (d : Byte) : d.toInt = if d.toNat < 128 then (d.toNat : Int) else (d.toNat : Int) - 256 := by
  rw [BitVec.toInt_eq_toNat_cond]
  split <;> split <;> omega

/-- A word as a two's-complement number (R93). -/
theorem word_toInt (d : Word) : d.toInt = if d.toNat < 32768 then (d.toNat : Int) else (d.toNat : Int) - 65536 := by
  rw [BitVec.toInt_eq_toNat_cond]
  split <;> split <;> omega

/-- A word as the number its two bytes make (R39). -/
theorem word_toNat_bytes (v : Word) : v.toNat = (lowByte v).toNat + 256 * (highByte v).toNat := by
  rw [← le16_toNat, le16_lowByte_highByte]

/-- Direct-address mode is the direct address (R63). -/
theorem eq_direct_of_directFlag {rm : Rm} (hwf : rm.wellFormed = true) (h : directFlag rm.mod rm.code = true) :
    ∃ a, rm = .direct a := by
  rw [directFlag_mod_code hwf] at h
  cases rm with
  | direct a => exact ⟨a, rfl⟩
  | reg | mem | mem8 | mem16 => cases h

/-- MOD = 1 is one displacement byte (R64). -/
theorem eq_mem8_of_mod {rm : Rm} (h : rm.mod = 1) : ∃ c d, rm = .mem8 c d := by
  cases rm with
  | mem8 c d => exact ⟨c, d, rfl⟩
  | reg | mem | direct | mem16 => cases h

/-- MOD = 2 is two displacement bytes (R64). -/
theorem eq_mem16_of_mod {rm : Rm} (h : rm.mod = 2) : ∃ c d, rm = .mem16 c d := by
  cases rm with
  | mem16 c d => exact ⟨c, d, rfl⟩
  | reg | mem | direct | mem8 => cases h

/-- Settles O14: the displacement is that of the operand, whose bytes begin at the third byte. -/
theorem displacementField : Obligations.DisplacementField := by
  intro input cur c r h hflag
  obtain ⟨i, rest, hd, hr, -⟩ := decode_of_decodeOne_instr h
  obtain ⟨hwf, hbytes⟩ := encode_of_decode hd
  obtain ⟨base, b, reg, rm, tail, rfl, henc, hwf_eq⟩ := decodedRecord_operand hr hflag
  have hextra : input.drop (cur + 2) = rm.extraBytes ++ (tail ++ rest) := by
    rw [← List.drop_drop, hbytes, henc]
    simp [modRmBytes]
  have hword {v : Word} (hv : rm.extraBytes = wordBytes v) :
      input[cur + 2]? = some (lowByte v) ∧ input[cur + 3]? = some (highByte v) := by
    rw [hv] at hextra
    exact ⟨getElem?_of_drop_cons hextra, getElem?_of_drop_cons (drop_succ_of_drop_cons hextra)⟩
  refine ⟨fun hdirect => ?_, fun hmod => ?_, fun hmod => ?_, rmDisp_eq_zero⟩
  · obtain ⟨a, rfl⟩ := eq_direct_of_directFlag (hwf_eq ▸ hwf) hdirect
    obtain ⟨hlo, hhi⟩ := hword (v := a) rfl
    exact ⟨_, _, hlo, hhi, word_toNat_bytes a⟩
  · obtain ⟨c, d, rfl⟩ := eq_mem8_of_mod hmod
    exact ⟨d, getElem?_of_drop_cons hextra, (sext16_toInt d).trans (byte_toInt d)⟩
  · obtain ⟨c, d, rfl⟩ := eq_mem16_of_mod hmod
    obtain ⟨hlo, hhi⟩ := hword (v := d) rfl
    exact ⟨_, _, hlo, hhi, by rw [← word_toNat_bytes]; exact word_toInt d⟩

/-- A record has an operation, at most one width flag, and never the flag that no row sets. -/
theorem decodedRecord_shape {i : Instr} {r : Record} (h : decodedRecord i = some r) :
    r.op ≠ .unknown ∧ ¬(r.flags.wlow = true ∧ r.flags.w3 = true) ∧ r.flags.regmodrm = false := by
  cases i with
  | movRmR | movRmImm | movRImm | movAccMem | movMemAcc | pushRm | pushR | pushSr | popRm | popR | popSr =>
    cases h
    exact ⟨nofun, nofun, rfl⟩
  | movSrRm | movRmSr => cases h

/-- The direct address has MOD = 0, so it is an effective address too (R17). -/
theorem eaFlag_of_directFlag {mod : ModCode} {rm : RegCode} (h : directFlag mod rm = true) : eaFlag mod = true := by
  obtain ⟨rfl, -⟩ : mod = 0#2 ∧ rm = 6#3 := by simpa [directFlag] using h
  rfl

/-- An instruction decoded at the cursor lies inside the source. -/
theorem cur_add_length_le_of_decode {input rest : List Byte} {cur : Nat} {i : Instr}
    (h : decode (input.drop cur) = .instr i rest) : cur + (encode i).length ≤ input.length := by
  have hlen := congrArg List.length (encode_of_decode h).2
  have hpos := (encode_length_bounds i).1
  rw [List.length_drop, List.length_append] at hlen
  omega

/-- Settles O18: the record is that of the decoded instruction, and its length is that of the instruction's bytes, which
the source holds. -/
theorem decodedRecordShape : Obligations.DecodedRecordShape := by
  intro input cur c r h
  obtain ⟨i, rest, hd, hr, hc⟩ := decode_of_decodeOne_instr h
  obtain ⟨hop, hwidth, hregmodrm⟩ := decodedRecord_shape hr
  have hea : r.direct = true → r.ea = true := by
    rcases decodedRecord_operandFields hr with ⟨-, base, reg, rm, rfl⟩ | ⟨-, -, hdirect, -⟩
    · exact eaFlag_of_directFlag
    · exact fun ht => nomatch hdirect.symm.trans ht
  have hinside := cur_add_length_le_of_decode hd
  obtain ⟨hlower, hupper⟩ := encode_length_bounds i
  rw [← decodedRecord_len hr] at hinside hlower hupper
  exact ⟨hop, hea, hwidth, hregmodrm, hc, hc ▸ hinside, hlower, hupper⟩

/-- Settles O35: the opcode byte is 00, the field, and the row's own last three bits. -/
theorem segmentCodeOfShape : Obligations.SegmentCodeOfShape := by
  unfold Obligations.SegmentCodeOfShape
  decide

end Sys2Proof.Machine

/-! What the meaning of an instruction and a turn of the driver do to the state: the line or the refusal of a decoded
record, the frame, and the turns of the driver by the bytes at the cursor (spec/43_translation_driver.md R114 to
R118). -/

namespace Sys2Proof.Machine

/-! ## The line of an instruction and the state that it leaves -/

section
variable {i : Instr} {r : Record} {s t : State} {rest : List Byte}

theorem printedLine_of_move (hr : decodedRecord i = some r) (hop : r.op = .move) (setting : PushPopSetting) :
    printedLine setting i = some (render r) := by
  simp [printedLine, hr, hop]

theorem printedLine_of_pushPop (hr : decodedRecord i = some r) (hop : r.op ≠ .move) (setting : PushPopSetting) :
    printedLine setting i = pushPopRender setting (resolve r) := by
  simp [printedLine, hr, hop]

theorem printedLine_of_no_record (hr : decodedRecord i = none) (setting : PushPopSetting) :
    printedLine setting i = none := by
  simp [printedLine, hr]

/-- An instruction that has a line appends it and drops its record (R118). -/
theorem exec_of_line {l : Text} (hl : printedLine s.pushPop i = some l) :
    exec i s = .next { s with record := Record.zero, cur := s.cur + (encode i).length, out := s.out ++ l } := by
  cases hr : decodedRecord i with
  | none => simp [printedLine_of_no_record hr] at hl
  | some r =>
    rw [← decodedRecord_len hr]
    by_cases hop : r.op = .move
    · rw [printedLine_of_move hr hop] at hl
      obtain rfl := Option.some.inj hl
      rw [exec_of_move hr hop]
      rfl
    · rw [printedLine_of_pushPop hr hop] at hl
      rw [exec_of_pushPop hr hop, printPushPop_of_line hl]
      rfl

/-- An instruction that has a record and no line is a Push or Pop that is refused: it ends the pass, and its record
stays (R95, R135). -/
theorem exec_of_refused (hr : decodedRecord i = some r) (hl : printedLine s.pushPop i = none) :
    r.op ≠ .move ∧
      exec i s = .next { s with record := resolve r, cur := s.cur + (encode i).length, status := .refused } := by
  have hop : r.op ≠ .move := fun hop => by simp [printedLine_of_move hr hop] at hl
  refine ⟨hop, ?_⟩
  rw [printedLine_of_pushPop hr hop] at hl
  rw [← decodedRecord_len hr, exec_of_pushPop hr hop, printPushPop_of_refuse hl]
  rfl

/-- The instructions without a record are the two segment-register moves (R104). -/
theorem encode_of_no_record (hr : decodedRecord i = none) : encode i = [0x8E] ∨ encode i = [0x8C] := by
  cases i with
  | movSrRm => exact .inl rfl
  | movRmSr => exact .inr rfl
  | movRmR | movRmImm | movRImm | movAccMem | movMemAcc | pushRm | pushR | pushSr | popRm | popR | popSr => cases hr

theorem encode_length_of_no_record (hr : decodedRecord i = none) : (encode i).length = 1 := by
  rcases encode_of_no_record hr with h | h <;> rw [h] <;> rfl

/-- The three ways an instruction can leave the state, with the condition of each. -/
theorem exec_next_cases (h : exec i s = .next t) :
    (∃ r l, decodedRecord i = some r ∧ printedLine s.pushPop i = some l ∧
      t = { s with record := Record.zero, cur := s.cur + (encode i).length, out := s.out ++ l }) ∨
    (∃ r, decodedRecord i = some r ∧ r.op ≠ .move ∧ printedLine s.pushPop i = none ∧
      t = { s with record := resolve r, cur := s.cur + (encode i).length, status := .refused }) ∨
    (decodedRecord i = none ∧ t = fail .unimplemented 1 s) := by
  cases hr : decodedRecord i with
  | none => exact .inr (.inr ⟨rfl, Host.Outcome.next.inj (h.symm.trans (exec_of_no_record hr s))⟩)
  | some r =>
    cases hl : printedLine s.pushPop i with
    | none =>
      obtain ⟨hop, he⟩ := exec_of_refused hr hl
      exact .inr (.inl ⟨r, rfl, hop, rfl, Host.Outcome.next.inj (h.symm.trans he)⟩)
    | some l => exact .inl ⟨r, l, rfl, rfl, Host.Outcome.next.inj (h.symm.trans (exec_of_line hl))⟩

/-! ## The driver's turn by the bytes at the cursor -/

theorem step_of_decode_error {k : ErrorKind} {n : Nat} (hs : s.AtDecode)
    (h : decode (s.input.drop s.cur) = .error k n) : step s = .next (fail k n s) := by
  simp [step, nextTurn_of_atDecode hs, pendingBytes, h, turnOf]

theorem step_of_decode_instr (hs : s.AtDecode) (h : decode (s.input.drop s.cur) = .instr i rest) :
    step s = exec i s := by
  simp [step, nextTurn_of_atDecode hs, pendingBytes, h, turnOf]

/-- `step_cases` by the state that the step gives. -/
theorem step_next_cases (h : step s = .next t) :
    (s.status.terminal = true ∧ t = s) ∨
      (s.status = .running ∧ s.out = [] ∧ t = emitHeader s) ∨
      (s.AtDecode ∧ s.input.drop s.cur = [] ∧ t = endPass s) ∨
      (∃ k n, s.AtDecode ∧ decode (s.input.drop s.cur) = .error k n ∧ t = fail k n s) ∨
      ∃ i rest, s.AtDecode ∧ decode (s.input.drop s.cur) = .instr i rest ∧ exec i s = .next t := by
  have hnext {u : State} (hu : step s = .next u) : t = u := Host.Outcome.next.inj (h.symm.trans hu)
  rcases step_cases s with ⟨hs, he⟩ | ⟨hs, ho, he⟩ | ⟨hs, hd, he⟩ | ⟨k, n, hs, hd, he⟩ | ⟨i, rest, hs, hd, he⟩
  · exact .inl ⟨hs, hnext he⟩
  · exact .inr (.inl ⟨hs, ho, hnext he⟩)
  · exact .inr (.inr (.inl ⟨hs, decode_eq_endOfStream_iff.mp hd, hnext he⟩))
  · exact .inr (.inr (.inr (.inl ⟨k, n, hs, hd, hnext he⟩)))
  · exact .inr (.inr (.inr (.inr ⟨i, rest, hs, hd, he.symm.trans h⟩)))

end

/-- The bytes that a failing decode counts as delivered are there. -/
theorem decode_error_le {bs : List Byte} {k : ErrorKind} {n : Nat} (h : decode bs = .error k n) : n ≤ bs.length := by
  rcases decode_error_cases h with ⟨-, rfl, b, tail, rfl, -⟩ | ⟨-, rfl, -⟩
  · simp
  · exact Nat.le_refl _

/-- DecodeOne finds the end of the stream only where no byte is left, and the cursor stays (R67). -/
theorem drop_of_decodeOne_endOfStream {input : List Byte} {cur c : Nat}
    (h : decodeOne input cur = (.endOfStream, c)) : input.drop cur = [] ∧ c = cur := by
  cases hd : decode (input.drop cur) with
  | endOfStream =>
    obtain rfl : cur = c := by simpa [decodeOne_of_decode_endOfStream hd] using h
    exact ⟨decode_eq_endOfStream_iff.mp hd, rfl⟩
  | error k n => simp [decodeOne_of_decode_error hd] at h
  | instr i rest =>
    cases hr : decodedRecord i with
    | none => simp [decodeOne_of_decode_segmentMove hd hr] at h
    | some r => simp [decodeOne_of_decode_instr hd hr] at h

/-! ## The statements about one instruction and one turn -/

/-- Settles O32: both fail with their opcode byte consumed. -/
theorem segmentMovesFail : Obligations.SegmentMovesFail :=
  fun s => ⟨exec_of_no_record rfl s, exec_of_no_record rfl s⟩

/-- Settles O34: the setting says whether the record has a line, and the line or its absence fixes the state. -/
theorem pushPopDefaultRefuses : Obligations.PushPopDefaultRefuses := by
  intro i r s hr hop refused printed
  have hline := printedLine_of_pushPop hr hop s.pushPop
  refine ⟨fun hset => ?_, fun hset => ?_⟩
  · exact (exec_of_refused hr (by rw [hline, hset]; rfl)).2
  · by_cases hdecl : Config.pushPopDeclines (resolve r) = true
    · rw [if_pos hdecl]
      exact (exec_of_refused hr (by rw [hline, hset]; simp [pushPopRender, hdecl])).2
    · rw [if_neg hdecl]
      exact exec_of_line (by rw [hline, hset]; simp [pushPopRender, hdecl, pushPopLine])

/-- Settles O36: the instruction has a line, or is refused, or has no record. -/
theorem instructionFrame : Obligations.InstructionFrame := by
  intro i s t h
  rcases exec_next_cases h with ⟨r, l, hr, -, rfl⟩ | ⟨r, hr, hop, -, rfl⟩ | ⟨hr, rfl⟩
  · exact ⟨rfl, rfl, rfl, List.prefix_append _ _, fun _ _ => .inl ⟨rfl, rfl⟩, fun hnone => by simp [hr] at hnone⟩
  · refine ⟨rfl, rfl, rfl, List.prefix_refl _, fun r' hr' => ?_, fun hnone => by simp [hr] at hnone⟩
    obtain rfl := Option.some.inj (hr.symm.trans hr')
    exact .inr ⟨hop, rfl, rfl, rfl⟩
  · have hcur : (fail .unimplemented 1 s).cur = s.cur + (encode i).length := by
      rw [encode_length_of_no_record hr, fail_cur]
    exact ⟨rfl, rfl, hcur, List.prefix_refl _, fun r' hr' => by simp [hr] at hr', fun _ => ⟨rfl, rfl, rfl⟩⟩

/-- Settles O37: what decodes is well-formed, and the turn of a decoded instruction is its meaning. -/
theorem stepRunsDecoded : Obligations.StepRunsDecoded :=
  fun _ _ _ hs h => ⟨(encode_of_decode h).1, step_of_decode_instr hs h⟩

/-- Settles O40: the turn of a running pass with no text is the header. -/
theorem headerBeforeAnyByte : Obligations.HeaderBeforeAnyByte := by
  intro s hs ho
  rw [step_of_no_text hs ho, emitHeader, emit, ho]
  rfl

/-- Settles O10: the byte has no row, so DecodeOne fails as Unknown, and so does the turn. -/
theorem unmatchedByteEndsPass : Obligations.UnmatchedByteEndsPass :=
  fun _ _ hs hb hrow => step_of_decodeOne_err hs (decodeOne_of_no_row hb hrow)

/-- Settles O43: no byte is pending at a clean end; a failure of DecodeOne is that of the turn. -/
theorem endOfPassState : Obligations.EndOfPassState := by
  refine ⟨fun s hs hcur => ?_, fun s k c hs h => step_of_decodeOne_err hs h⟩
  rw [step_of_pendingBytes_nil hs (by simp [pendingBytes, hcur]), endPass]

/-- Settles O45: a step from a terminal state changes nothing, and so no number of steps does. -/
theorem terminalStateStays : Obligations.TerminalStateStays :=
  ⟨fun _ n h => runSteps_of_terminal h n, fun _ _ => rfl⟩

/-- Settles O46: each case of a step advances the cursor over bytes that were pending, and appends. -/
theorem stepOnlyAppends : Obligations.StepOnlyAppends := by
  intro s
  obtain ⟨t, ht⟩ := step_next s
  refine ⟨t, ht, ?_⟩
  rcases step_next_cases ht with ⟨-, rfl⟩ | ⟨-, -, rfl⟩ | ⟨-, -, rfl⟩ | ⟨k, n, -, hd, rfl⟩ | ⟨i, rest, -, hd, hexec⟩
  · exact ⟨rfl, rfl, Nat.le_refl _, Nat.le_add_right _ _, List.prefix_refl _⟩
  · exact ⟨rfl, rfl, Nat.le_refl _, Nat.le_add_right _ _, List.prefix_append _ _⟩
  · exact ⟨rfl, rfl, Nat.le_refl _, Nat.le_add_right _ _, List.prefix_refl _⟩
  · have hn : n ≤ s.input.length - s.cur := by simpa using decode_error_le hd
    exact ⟨rfl, rfl, Nat.le_add_right _ _, Nat.add_le_add_left hn _, List.prefix_refl _⟩
  · obtain ⟨hinput, hset, hcur, hout, -⟩ := instructionFrame i s t hexec
    have hinside := cur_add_length_le_of_decode hd
    exact ⟨hinput, hset, by omega, by omega, hout⟩

/-- A step keeps the byte source and the setting. -/
theorem step_keeps_input_setting {s t : State} (h : step s = .next t) : t.input = s.input ∧ t.pushPop = s.pushPop := by
  obtain ⟨t', ht', hinput, hset, -⟩ := stepOnlyAppends s
  obtain rfl := Host.Outcome.next.inj (ht'.symm.trans h)
  exact ⟨hinput, hset⟩

/-- Settles O19: DecodeOne answers what the decoder by forms does, and the turn runs that answer. -/
theorem turnIsDecodeThenPrint : Obligations.TurnIsDecodeThenPrint := by
  intro s hs d
  refine ⟨⟨rfl, rfl, rfl, rfl⟩, ?_⟩
  have hd : d = callDecodeOne s := rfl
  rw [hd, callDecodeOne]
  rcases hdec : decodeOne s.input s.cur with ⟨r | _ | k, c⟩
  · obtain ⟨i, rest, hi, hr, rfl⟩ := decode_of_decodeOne_instr hdec
    rw [step_of_decode_instr hs hi]
    by_cases hop : r.op = .move
    · rw [exec_of_line (printedLine_of_move hr hop _), ← decodedRecord_len hr]
      simp [hop]
    · cases hline : pushPopRender s.pushPop (resolve r) with
      | none =>
        rw [(exec_of_refused hr ((printedLine_of_pushPop hr hop _).trans hline)).2, ← decodedRecord_len hr]
        simp [hop, hline]
      | some l =>
        rw [exec_of_line ((printedLine_of_pushPop hr hop _).trans hline), ← decodedRecord_len hr]
        simp [hop, hline]
  · obtain ⟨hnil, rfl⟩ := drop_of_decodeOne_endOfStream hdec
    exact step_of_pendingBytes_nil hs hnil
  · exact step_of_decodeOne_err hs hdec

/-! ## Placing an instruction, and the bytes that a turn does not see -/

/-- The placed bytes begin at the cursor (log entry 9). -/
theorem drop_overlay (input : List Byte) (cur : Nat) (bs : List Byte) :
    (overlay input cur bs).drop cur = bs ++ input.drop (cur + bs.length) := by
  have hbefore : (input.take cur ++ List.replicate (cur - input.length) 0).length = cur := by
    simp only [List.length_append, List.length_take, List.length_replicate]
    omega
  rw [overlay, List.append_assoc, List.drop_left' hbefore]

/-- Bytes after those of an instruction do not change what is decoded. -/
theorem decode_append {bs rest : List Byte} {i : Instr} (h : decode bs = .instr i rest) (more : List Byte) :
    decode (bs ++ more) = .instr i (rest ++ more) := by
  obtain ⟨hwf, rfl⟩ := encode_of_decode h
  rw [List.append_assoc]
  exact decode_encode i hwf _

theorem atDecode_placeBytes (bs : List Byte) (s : State) : (placeBytes bs s).AtDecode := by
  refine ⟨rfl, ?_⟩
  rw [placeBytes_out]
  split
  · exact List.cons_ne_nil _ _
  · rename_i hne
    simpa using hne

/-- Settles O38: the placed bytes stand at the cursor, and the bytes after them do not matter to their decode. -/
theorem placedWordRuns : Obligations.PlacedWordRuns := by
  intro s nbits w i h
  refine ⟨?_, rfl, rfl⟩
  cases hd : decode (tableBytes nbits w) with
  | endOfStream => simp [decodeTableWord, hd] at h
  | error k n => simp [decodeTableWord, hd] at h
  | instr j rest =>
    obtain rfl : j = i := by simpa [decodeTableWord, hd] using h
    have hdrop := drop_overlay s.input s.cur (tableBytes nbits w)
    exact step_of_decode_instr (atDecode_placeBytes _ s) ((congrArg decode hdrop).trans (decode_append hd _))

/-- The meaning of an instruction does not read the byte source. -/
theorem exec_input {i : Instr} {s t : State} (h : exec i s = .next t) (input : List Byte) :
    exec i { s with input := input } = .next { t with input := input } := by
  obtain ⟨record, cur, status, line, hturn⟩ := exec_uniformTurn i s.cur s.status s.pushPop
  obtain rfl := Host.Outcome.next.inj ((hturn s ⟨rfl, rfl, rfl⟩).symm.trans h)
  exact hturn { s with input := input } ⟨rfl, rfl, rfl⟩

/-- The bytes up to a cursor that moves on over `part`. -/
theorem take_add_of_drop {input part rest : List Byte} {cur : Nat} (h : input.drop cur = part ++ rest) :
    input.take (cur + part.length) = input.take cur ++ part := by
  rw [List.take_add, h, List.take_left]

theorem add_length_le_of_drop {input part rest : List Byte} {cur : Nat} (hle : cur ≤ input.length)
    (h : input.drop cur = part ++ rest) : cur + part.length ≤ input.length := by
  have hlen := congrArg List.length h
  rw [List.length_drop, List.length_append] at hlen
  omega

/-- The bytes from the cursor on, after all that a turn did not consume is replaced. -/
theorem drop_take_append {input part rest : List Byte} {cur : Nat} (hle : cur ≤ input.length)
    (h : input.drop cur = part ++ rest) (tail : List Byte) :
    (input.take (cur + part.length) ++ tail).drop cur = part ++ tail := by
  rw [take_add_of_drop h, List.append_assoc, List.drop_left' (List.length_take_of_le hle)]

/-- Settles O48: a turn that did not meet the end of the source consumed an instruction, or a byte without a row, and
finds the same with other bytes after it. -/
theorem noLookAhead : Obligations.NoLookAhead := by
  intro s t hs hle hstep hdone hmissing tail
  have hs' : State.AtDecode { s with input := s.input.take t.cur ++ tail } := hs
  rcases step_next_cases hstep with ⟨hterm, -⟩ | ⟨-, ho, -⟩ | ⟨-, -, rfl⟩ | ⟨k, n, -, hd, rfl⟩ | ⟨i, rest, -, hd, hexec⟩
  · simp [hs.1, Status.terminal] at hterm
  · exact absurd ho hs.2
  · exact absurd rfl hdone
  · rcases decode_error_cases hd with ⟨rfl, rfl, b, rest, hbytes, hrow⟩ | ⟨rfl, -⟩
    · have hdrop := drop_take_append (part := [b]) hle hbytes tail
      exact step_of_decode_error hs' ((congrArg decode hdrop).trans (decode_of_no_row hrow tail))
    · exact absurd rfl hmissing
  · obtain ⟨-, -, hcur, -⟩ := instructionFrame i s t hexec
    obtain ⟨hwf, hbytes⟩ := encode_of_decode hd
    have hdrop := drop_take_append hle hbytes tail
    rw [← hcur] at hdrop
    rw [step_of_decode_instr hs' ((congrArg decode hdrop).trans (decode_encode i hwf tail))]
    exact exec_input hexec _

end Sys2Proof.Machine

/-! The invariant of a pass: header and lines match the consumed bytes (spec/10_state.md section 5, spec/20_memory.md
section 5, spec/60_exceptions.md section 3). -/

namespace Sys2Proof.Machine

/-! ## Bytes that end too soon are the beginning of an instruction (R67) -/

/-- Where the reader finds a byte missing, there are bytes that complete what it reads. -/
def Completes {α : Type} (read : List Byte → Option (α × List Byte)) : Prop :=
  ∀ bs, read bs = none → ∃ missing ≠ [], ∃ v, read (bs ++ missing) = some (v, [])

theorem Completes.map {α β : Type} {read : List Byte → Option (α × List Byte)} (h : Completes read) (k : α → β) :
    Completes fun bs => (read bs).map fun p => (k p.1, p.2) := by
  intro bs hnone
  obtain ⟨missing, hne, v, hv⟩ := h bs (Option.map_eq_none_iff.mp hnone)
  exact ⟨missing, hne, k v, by simp only [hv, Option.map_some]⟩

/-- A reader that finds no byte missing has nothing to complete. -/
theorem completes_some {α : Type} (v : α) : Completes fun bs => some (v, bs) := nofun

theorem takeByte_completes : Completes takeByte := by
  intro bs h
  cases bs with
  | nil => exact ⟨[0], by decide, 0, rfl⟩
  | cons b bs => cases h

theorem takeWord_completes : Completes takeWord := by
  intro bs h
  rcases bs with _ | ⟨lo, _ | ⟨hi, bs⟩⟩
  · exact ⟨[0, 0], by decide, _, rfl⟩
  · exact ⟨[0], by decide, _, rfl⟩
  · cases h

theorem takeSized_completes (w : Bool) : Completes (takeSized w) := by
  cases w with
  | false => exact takeByte_completes.map Sized.byte
  | true => exact takeWord_completes.map Sized.word

theorem takeRm_completes (mod : ModCode) (rm : RegCode) : Completes (takeRm mod rm) := by
  unfold takeRm
  split_ifs
  · exact takeWord_completes.map Rm.direct
  · exact completes_some _
  · exact takeByte_completes.map (Rm.mem8 rm)
  · exact takeWord_completes.map (Rm.mem16 rm)
  · exact completes_some _

theorem takeModRm_completes : Completes takeModRm := by
  intro bs h
  cases bs with
  | nil => exact ⟨[0], by decide, _, rfl⟩
  | cons m bs => exact (takeRm_completes (modField m) (rmField m)).map (fun rm => (regField m, rm)) bs h

/-- Bytes after those of an operand do not change what is read. -/
theorem takeModRm_append {bs rest : List Byte} {m : RegCode × Rm} (h : takeModRm bs = some (m, rest))
    (more : List Byte) : takeModRm (bs ++ more) = some (m, rest ++ more) := by
  obtain ⟨hwf, rfl⟩ := takeModRm_some h
  rw [List.append_assoc]
  exact takeModRm_bytes m.1 m.2 hwf _

/-- MOV_RM_IMM has two parts that can end too soon. -/
theorem takeForm_movRmImm_completes (b : Byte) : Completes (takeForm .movRmImm b) := by
  intro bs h
  have hsized := takeSized_completes (wLowBit b)
  cases hm : takeModRm bs with
  | none =>
    obtain ⟨missing, hne, m, hm'⟩ := takeModRm_completes bs hm
    obtain ⟨data, -, v, hv⟩ := hsized [] (by cases wLowBit b <;> rfl)
    have hwhole := takeModRm_append hm' data
    rw [List.append_assoc] at hwhole
    refine ⟨missing ++ data, by simp [hne], .movRmImm m.1 m.2 v, ?_⟩
    simpa [takeForm, hwhole] using hv
  | some p =>
    obtain ⟨m, rest⟩ := p
    obtain ⟨data, hne, v, hv⟩ := hsized rest (by simpa [takeForm, hm] using h)
    refine ⟨data, hne, .movRmImm m.1 m.2 v, ?_⟩
    simp [takeForm, takeModRm_append hm, hv]

theorem takeForm_completes (f : Form) (b : Byte) : Completes (takeForm f b) := by
  cases f with
  | movRmR => exact takeModRm_completes.map fun m => Instr.movRmR (dBit b) (wLowBit b) m.1 m.2
  | movRmImm => exact takeForm_movRmImm_completes b
  | movRImm => exact (takeSized_completes _).map (Instr.movRImm (opcodeReg b))
  | movAccMem => exact (takeSized_completes _).map Instr.movAccMem
  | movMemAcc => exact (takeSized_completes _).map Instr.movMemAcc
  | pushRm => exact takeModRm_completes.map fun m => Instr.pushRm m.1 m.2
  | popRm => exact takeModRm_completes.map fun m => Instr.popRm m.1 m.2
  | movSrRm | movRmSr | pushR | pushSr | popR | popSr => exact completes_some _

/-- Bytes that decode to MissingByte are some but not all of the first bytes of a well-formed instruction. -/
theorem properPrefix_of_decode {bs : List Byte} {n : Nat} (h : decode bs = .error .missingByte n) :
    n = bs.length ∧ ∃ i, i.wellFormed = true ∧ bs ≠ [] ∧ bs ≠ encode i ∧ bs <+: encode i := by
  obtain ⟨hk, -⟩ | ⟨-, hn, b, tail, row, rfl, hrow, hnone⟩ := decode_error_cases h
  · cases hk
  · obtain ⟨missing, hne, i, hi⟩ := takeForm_completes row.form b tail hnone
    obtain ⟨hwf, hbytes⟩ := takeForm_some hi
    have hwhole : encode i = b :: tail ++ missing := by
      simpa [rebuiltOpcode_of_classify hrow] using hbytes.symm
    exact ⟨hn, i, hwf, List.cons_ne_nil _ _, by simpa [hwhole] using hne, hwhole ▸ List.prefix_append _ _⟩

/-! ## What a turn adds to the consumed bytes and the printed lines -/

section
variable {s : State} {is : List Instr} {part rest : List Byte}

/-- While the pass runs, nothing is consumed beyond the printed instructions. -/
theorem Printed.take_cur (h : Printed s is) (hs : s.status = .running) :
    s.input.take s.cur = (is.map encode).flatten := by
  obtain ⟨-, -, -, tail, htake, htail⟩ := h
  have hnil : tail = [] := by simpa [TailMatches, hs] using htail
  rw [htake, hnil, List.append_nil]

theorem Printed.cur_le (h : Printed s is) : s.cur ≤ s.input.length := by
  obtain ⟨-, -, hle, -⟩ := h
  exact hle

/-- A turn that ends the pass consumes what the status says and prints nothing. -/
theorem Printed.stop (h : Printed s is) (hs : s.status = .running) (hd : s.input.drop s.cur = part ++ rest)
    (record : Record) {status : Status}
    (htail : TailMatches { s with record := record, cur := s.cur + part.length, status := status } part) :
    Printed { s with record := record, cur := s.cur + part.length, status := status } is := by
  have htake := h.take_cur hs
  obtain ⟨hwf, hlines, hle, -⟩ := h
  exact ⟨hwf, hlines, add_length_le_of_drop hle hd, part, by rw [take_add_of_drop hd, htake], htail⟩

/-- A turn that prints consumes an instruction and appends its line. -/
theorem Printed.print {i : Instr} {l : Text} (h : Printed s is) (hs : s.status = .running) (hwf : i.wellFormed = true)
    (hd : s.input.drop s.cur = encode i ++ rest) (hl : printedLine s.pushPop i = some l) :
    Printed { s with record := Record.zero, cur := s.cur + (encode i).length, out := s.out ++ l } (is ++ [i]) := by
  have htake := h.take_cur hs
  obtain ⟨hwfs, ⟨lines, hlines, hout⟩, hle, -⟩ := h
  refine ⟨?_, ⟨lines ++ [l], ?_, ?_⟩, add_length_le_of_drop hle hd, [], ?_, ?_⟩
  · simpa [or_imp, forall_and] using ⟨hwfs, hwf⟩
  · simp [hlines, hl]
  · simp [hout]
  · simp [take_add_of_drop hd, htake]
  · simp [TailMatches, hs]

/-- The turn of a decoded instruction, where the invariant holds with its bytes pending. -/
theorem Printed.exec {i : Instr} {t : State} (h : Printed s is) (hs : s.status = .running) (hwf : i.wellFormed = true)
    (hd : s.input.drop s.cur = encode i ++ rest) (he : exec i s = .next t) : ∃ is, Printed t is := by
  rcases exec_next_cases he with ⟨r, l, -, hl, rfl⟩ | ⟨r, hr, -, hl, rfl⟩ | ⟨hr, rfl⟩
  · exact ⟨is ++ [i], h.print hs hwf hd hl⟩
  · exact ⟨is, h.stop hs hd (resolve r) ⟨i, r, hwf, rfl, hr, hl⟩⟩
  · have hone : 1 = (encode i).length := (encode_length_of_no_record hr).symm
    rw [fail, hone]
    exact ⟨is, h.stop hs hd Record.zero (encode_of_no_record hr)⟩

end

/-! ## The invariant -/

/-- Settles O50: nothing is consumed or printed at the start. -/
theorem passInvariantAtStart : Obligations.PassInvariantAtStart :=
  ⟨.inl ⟨rfl, rfl, rfl⟩, fun _ _ => .inl ⟨rfl, rfl, rfl⟩⟩

/-- The text of a pass that has printed begins with the header, so it is not empty. -/
theorem Printed.out_ne_nil {s : State} {is : List Instr} (h : Printed s is) : s.out ≠ [] := by
  obtain ⟨-, ⟨lines, -, hout⟩, -⟩ := h
  rw [hout]
  exact List.cons_ne_nil _ _

/-- Settles O49: the header begins an empty list of printed instructions; a decoded instruction extends it or ends the
pass; a failing decode ends it with a byte without a row, or with the beginning of an instruction. -/
theorem stepKeepsPassInvariant : Obligations.StepKeepsPassInvariant := by
  intro s t hinv hstep
  rcases step_next_cases hstep with
    ⟨-, rfl⟩ | ⟨hs, ho, rfl⟩ | ⟨ha, hnil, rfl⟩ | ⟨k, n, ha, hd, rfl⟩ | ⟨i, rest, ha, hd, hexec⟩
  · exact hinv
  · obtain ⟨-, hcur, -⟩ := hinv.resolve_right fun ⟨is, h⟩ => h.out_ne_nil ho
    refine .inr ⟨[], by simp, ⟨[], rfl, by simp [ho]⟩, by simp [hcur], [], by simp [hcur], ?_⟩
    simp [TailMatches, hs]
  · obtain ⟨is, h⟩ := hinv.printed ha
    have hcur : s.cur = s.input.length := eq_length_of_drop_nil h.cur_le hnil
    exact .inr ⟨is, h.stop ha.1 (part := []) (rest := []) hnil Record.zero ⟨rfl, hcur⟩⟩
  · obtain ⟨is, h⟩ := hinv.printed ha
    refine .inr ⟨is, ?_⟩
    rcases decode_error_cases hd with ⟨rfl, rfl, b, tail, hbytes, hrow⟩ | ⟨rfl, -⟩
    · exact h.stop ha.1 (part := [b]) hbytes Record.zero ⟨b, rfl, hrow⟩
    · obtain ⟨rfl, i, hi⟩ := properPrefix_of_decode hd
      have hend : s.cur + (s.input.drop s.cur).length = s.input.length := by
        rw [List.length_drop, Nat.add_sub_cancel' h.cur_le]
      exact h.stop ha.1 (rest := []) (List.append_nil _).symm Record.zero ⟨hend, i, hi⟩
  · obtain ⟨is, h⟩ := hinv.printed ha
    obtain ⟨hwf, hbytes⟩ := encode_of_decode hd
    exact .inr (h.exec ha.1 hwf hbytes hexec)

end Sys2Proof.Machine

/-! The texts of the printer: numerals, operands, lines, and what characters they are made of (spec/00_scope.md R10,
spec/40_operand_resolution_and_printing.md R81 to R95, spec/20_memory.md R44, R45). -/

namespace Sys2Proof.Machine

/-! ## Decimal numerals (R10) -/

/-- The digits made so far stay at the end. -/
theorem decFuel_append (fuel n : Nat) (acc : Text) : decFuel fuel n acc = decFuel fuel n [] ++ acc := by
  induction fuel generalizing n acc with
  | zero => rfl
  | succ fuel ih =>
    simp only [decFuel]
    split
    · rfl
    · rw [ih (n / 10) (digitChar n :: acc), ih (n / 10) [digitChar n], List.append_assoc, List.singleton_append]

/-- Fuel above the number is enough, and more changes nothing. -/
theorem decFuel_of_lt {fuel n : Nat} (h : n < fuel) : decFuel fuel n [] = dec n := by
  have hfuel : ∀ m, n < m → decFuel fuel n [] = decFuel m n [] := by
    induction fuel generalizing n with
    | zero => omega
    | succ fuel ih =>
      intro m hm
      obtain ⟨m, rfl⟩ := Nat.exists_eq_add_of_lt hm
      simp only [decFuel]
      split
      · rfl
      · rw [decFuel_append fuel, decFuel_append (n + m), ih (by omega) (n + m) (by omega)]
  exact hfuel (n + 1) (Nat.lt_succ_self n)

theorem dec_of_lt_ten {n : Nat} (h : n < 10) : dec n = [digitChar n] := by
  simp [dec, decFuel, Nat.div_eq_of_lt h]

/-- A numeral of two digits or more is the numeral of the number without its last digit, and that digit. -/
theorem dec_of_ten_le {n : Nat} (h : 10 ≤ n) : dec n = dec (n / 10) ++ [digitChar n] := by
  have hdiv : n / 10 ≠ 0 := by omega
  rw [dec, decFuel, if_neg hdiv, decFuel_append, decFuel_of_lt (by omega)]

/-- What holds of the one-digit numerals, and of a numeral with a digit more, holds of every numeral. -/
theorem dec_induction {motive : Nat → Prop} (digit : ∀ n < 10, motive n)
    (more : ∀ n, 10 ≤ n → motive (n / 10) → motive n) (n : Nat) : motive n := by
  induction n using Nat.strongRecOn with
  | ind n ih =>
    by_cases h : n < 10
    · exact digit n h
    · exact more n (by omega) (ih (n / 10) (by omega))

/-- A digit is a character of the digits, and its value is its place after `0`. -/
theorem digitChar_spec (n : Nat) : digitChar n ∈ digits ∧ (digitChar n).toNat - 48 = n % 10 := by
  have hdigit : ∀ d < 10, Char.ofNat (48 + d) ∈ digits ∧ (Char.ofNat (48 + d)).toNat - 48 = d := by decide
  exact hdigit (n % 10) (Nat.mod_lt n (by decide))

theorem numeralValue_append_digit (t : Text) (n : Nat) :
    numeralValue (t ++ [digitChar n]) = 10 * numeralValue t + n % 10 := by
  simp [numeralValue, (digitChar_spec n).2]

theorem numeralValue_dec (n : Nat) : numeralValue (dec n) = n := by
  induction n using dec_induction with
  | digit n h =>
    rw [dec_of_lt_ten h, ← List.nil_append [digitChar n], numeralValue_append_digit]
    simp [numeralValue, Nat.mod_eq_of_lt h]
  | more n h ih =>
    rw [dec_of_ten_le h, numeralValue_append_digit, ih]
    omega

theorem dec_ne_zero {n : Nat} (h : n ≠ 0) : dec n ≠ ['0'] := by
  intro hdec
  have hvalue : numeralValue (dec n) = 0 := by rw [hdec]; rfl
  exact h ((numeralValue_dec n).symm.trans hvalue)

theorem isNumber_dec (n : Nat) : IsNumber (dec n) := by
  induction n using dec_induction with
  | digit n h =>
    rw [dec_of_lt_ten h]
    exact ⟨List.cons_ne_nil _ _, by simpa using (digitChar_spec n).1, by simp⟩
  | more n h ih =>
    obtain ⟨hne, hdigits, hzero⟩ := ih
    have hnot : dec (n / 10) ≠ ['0'] := dec_ne_zero (by omega)
    rw [dec_of_ten_le h]
    refine ⟨by simp, ?_, fun hhead => ?_⟩
    · simpa [or_imp, forall_and] using ⟨hdigits, (digitChar_spec n).1⟩
    · rw [List.head?_append_of_ne_nil _ hne] at hhead
      exact absurd (hzero hhead) hnot

/-- Settles O20, digit by digit. -/
theorem decimalNumeral : Obligations.DecimalNumeral := fun n => ⟨isNumber_dec n, numeralValue_dec n⟩

/-! ## Operands and fields -/

/-- Settles O22 by evaluation of the four tables. -/
theorem registerTables : Obligations.RegisterTables := by
  unfold Obligations.RegisterTables
  decide

/-- Settles O21: the displacement's sign and magnitude by the half of the range that it lies in. -/
theorem displacementText : Obligations.DisplacementText := by
  intro base d
  have hlt := d.isLt
  have hint := word_toInt d
  refine ⟨fun hzero => ?_, fun hpos hsmall => ?_, fun hlarge => ?_⟩
  · obtain rfl : d = 0#16 := BitVec.eq_of_toNat_eq hzero
    rfl
  · have hd : d ≠ 0#16 := by rintro rfl; cases hpos
    rw [if_pos hsmall] at hint
    have hsign : 0 < d.toInt := by omega
    have habs : d.toInt.natAbs = d.toNat := by omega
    simp [operandText, hd, sdec, hsign, habs, bracketed]
  · have hd : d ≠ 0#16 := by rintro rfl; cases hlarge
    rw [if_neg (by omega)] at hint
    have hsign : ¬ 0 < d.toInt := by omega
    have habs : d.toInt.natAbs = 65536 - d.toNat := by omega
    simp [operandText, hd, sdec, hsign, habs, bracketed]

theorem isReg_regText (id : RegName) : IsReg (regText id) := by
  unfold IsReg
  cases id <;> decide

theorem isBase_baseText (base : BaseName) : IsBase (baseText base) := by
  unfold IsBase
  cases base <;> decide

/-- The text of an operand is a register field or a memory field (R81 to R85, R92). -/
theorem operandText_isField (o : Operand) : IsReg (operandText o) ∨ IsMem (operandText o) := by
  cases o with
  | register id => exact .inl (isReg_regText id)
  | directAddress a => exact .inr ⟨dec a.toNat, rfl, .inr (.inl (isNumber_dec _))⟩
  | accumulatorAddress a => exact .inr ⟨dec a.toNat, rfl, .inr (.inl (isNumber_dec _))⟩
  | effectiveAddress base disp =>
    by_cases hd : disp = 0#16
    · exact .inr ⟨baseText base, by simp [operandText, hd, bracketed], .inl (isBase_baseText base)⟩
    · have habs : dec disp.toInt.natAbs ≠ ['0'] := dec_ne_zero (by simpa [← BitVec.toInt_inj] using hd)
      have hsign : ∃ sign, (sign = '+' ∨ sign = '-') ∧ sdec disp.toInt = sign :: dec disp.toInt.natAbs := by
        unfold sdec
        split
        · exact ⟨'+', .inl rfl, rfl⟩
        · exact ⟨'-', .inr rfl, rfl⟩
      obtain ⟨sign, hs, hsdec⟩ := hsign
      refine .inr ⟨baseText base ++ ' ' :: sign :: dec disp.toInt.natAbs, ?_,
        .inr (.inr ⟨_, sign, _, isBase_baseText base, hs, isNumber_dec _, habs, rfl⟩)⟩
      simp [operandText, hd, hsdec, bracketed]

/-- The immediate field is a keyword, alone or with a number that is not 0 (R88). -/
theorem immText_isImm (r : Record) : IsImm (immText r) := by
  refine ⟨sizeKeyword r.word, by cases r.word <;> decide, ?_⟩
  by_cases hd : r.data = 0#16
  · exact .inl (by simp [immText, hd])
  · have hvalue : r.data.toNat ≠ 0 := fun h => hd (BitVec.eq_of_toNat_eq h)
    exact .inr ⟨dec r.data.toNat, isNumber_dec _, dec_ne_zero hvalue, by simp [immText, hd]⟩

/-! ## The characters of the fields -/

/-- A character of the alphabet that is not the newline. -/
def fieldChar (c : Char) : Bool := alphabet.contains c && c != '\n'

theorem fieldChar_iff (c : Char) : fieldChar c = true ↔ c ∈ alphabet ∧ c ≠ '\n' := by
  simp [fieldChar]

/-- Characters of the alphabet, and none of them a newline. -/
def FieldChars (t : Text) : Prop := t.all fieldChar = true

/-- The text has a last character, which is not white space. -/
def EndsVisibly (t : Text) : Prop := t.getLast?.any (fun c => !isBlank c) = true

theorem FieldChars.append {t u : Text} (ht : FieldChars t) (hu : FieldChars u) : FieldChars (t ++ u) := by
  simp only [FieldChars, List.all_append, Bool.and_eq_true] at ht hu ⊢
  exact ⟨ht, hu⟩

theorem EndsVisibly.append {u : Text} (hu : EndsVisibly u) (t : Text) : EndsVisibly (t ++ u) := by
  unfold EndsVisibly at hu ⊢
  rw [List.getLast?_append]
  cases h : u.getLast? with
  | none => simp [h] at hu
  | some c => simpa [h] using hu

theorem EndsVisibly.ne_nil {t : Text} (h : EndsVisibly t) : t ≠ [] := by
  rintro rfl
  cases h

theorem IsReg.chars {t : Text} (h : IsReg t) : FieldChars t ∧ EndsVisibly t := by
  unfold IsReg at h
  unfold FieldChars EndsVisibly
  revert t
  decide

theorem IsBase.fieldChars {t : Text} (h : IsBase t) : FieldChars t := by
  unfold IsBase at h
  unfold FieldChars
  revert t
  decide

theorem IsNumber.chars {t : Text} (h : IsNumber t) : FieldChars t ∧ EndsVisibly t := by
  obtain ⟨hne, hdigits, -⟩ := h
  have hall : digits.all (fun c => fieldChar c && !isBlank c) = true := rfl
  have hdigit (c : Char) (hc : c ∈ t) : fieldChar c = true ∧ isBlank c = false := by
    simpa using List.all_eq_true.mp hall c (hdigits c hc)
  refine ⟨List.all_eq_true.mpr fun c hc => (hdigit c hc).1, ?_⟩
  have hlast := (hdigit _ (List.getLast_mem hne)).2
  simp [EndsVisibly, List.getLast?_eq_getLast_of_ne_nil hne, hlast]

theorem IsMem.chars {t : Text} (h : IsMem t) : FieldChars t ∧ EndsVisibly t := by
  obtain ⟨inner, rfl, hinner⟩ := h
  have hopen : FieldChars ['['] := rfl
  have hclose : FieldChars [']'] := rfl
  have hchars : FieldChars inner := by
    rcases hinner with hbase | hnum | ⟨base, sign, n, hbase, hsign, hnum, -, rfl⟩
    · exact hbase.fieldChars
    · exact hnum.chars.1
    · have hsep : FieldChars [' ', sign] := by
        rcases hsign with rfl | rfl <;> rfl
      exact hbase.fieldChars.append (hsep.append hnum.chars.1)
  exact ⟨hopen.append (hchars.append hclose), EndsVisibly.append (u := [']']) rfl ('[' :: inner)⟩

/-- A register or memory field. -/
theorem field_chars {t : Text} (h : IsReg t ∨ IsMem t) : FieldChars t ∧ EndsVisibly t :=
  h.elim IsReg.chars IsMem.chars

theorem IsImm.chars {t : Text} (h : IsImm t) : FieldChars t ∧ EndsVisibly t := by
  obtain ⟨size, hsize, ht⟩ := h
  have hkeyword : ∀ size ∈ ["byte".toList, "word".toList], FieldChars size ∧ EndsVisibly size := by
    unfold FieldChars EndsVisibly; decide
  have hspace : FieldChars [' '] := rfl
  rcases ht with rfl | ⟨n, hnum, -, rfl⟩
  · exact hkeyword _ hsize
  · exact ⟨(hkeyword _ hsize).1.append (hspace.append hnum.chars.1), hnum.chars.2.append [' '] |>.append size⟩

/-! ## Move lines (R86 to R94) -/

theorem IsMoveLine.body {t : Text} (h : IsMoveLine t) :
    ∃ body, t = body ++ ['\n'] ∧ FieldChars body ∧ EndsVisibly body := by
  obtain ⟨a, b, ha, hb, rfl⟩ := h
  have hmov : FieldChars "mov ".toList := rfl
  have hsep : FieldChars ", ".toList := rfl
  obtain ⟨hsecond, hend⟩ : FieldChars b ∧ EndsVisibly b := by
    rcases hb with h | h | h
    · exact h.chars
    · exact h.chars
    · exact h.chars
  exact ⟨_, rfl, ((hmov.append (field_chars ha).1).append hsep).append hsecond, hend.append _⟩

theorem alphabet_ascii {c : Char} (h : c ∈ alphabet) : c.toNat < 128 := by
  have hall : alphabet.all (fun c => decide (c.toNat < 128)) = true := rfl
  simpa using List.all_eq_true.mp hall c h

/-- A line of the grammar is complete: its fields are ASCII, and the last of them ends visibly (R44, R45). -/
theorem isLine_of_isMoveLine {t : Text} (h : IsMoveLine t) : IsLine t := by
  obtain ⟨body, rfl, hchars, hend⟩ := h.body
  refine ⟨body, rfl, fun c hc => ?_, fun c hc => by simpa [EndsVisibly, hc] using hend⟩
  obtain ⟨hmem, hne⟩ := (fieldChar_iff c).mp (List.all_eq_true.mp hchars c hc)
  exact ⟨alphabet_ascii hmem, hne⟩

theorem join_two_fields {a b : Text} (ha : a ≠ []) (hb : b ≠ []) :
    join fieldSep (nonempty [a, b]) = a ++ ", ".toList ++ b := by
  simp [nonempty, ha, hb, join, fieldSep]

@[simp] theorem nonempty_nil_cons (ts : List Text) : nonempty ([] :: ts) = nonempty ts := rfl

theorem secondText_isField (r : Record) : IsReg (secondText r) ∨ IsMem (secondText r) := by
  unfold secondText
  split <;> exact operandText_isField _

theorem firstText_isField (r : Record) : IsReg (firstText r) ∨ IsMem (firstText r) := by
  unfold firstText
  split <;> exact operandText_isField _

/-- A record with no immediate prints its two positions (R86). -/
theorem render_of_no_imm {r : Record} (h : r.flags.imm = false) :
    render r = "mov ".toList ++ firstText r ++ ", ".toList ++ secondText r ++ "\n".toList := by
  have hfirst := (field_chars (firstText_isField r)).2.ne_nil
  have hsecond := (field_chars (secondText_isField r)).2.ne_nil
  have hjoin := join_two_fields hfirst hsecond
  simp [render, printedFields, h, hjoin]

/-- A record with an immediate prints its second position and the immediate (R87, R88). -/
theorem render_of_imm {r : Record} (h : r.flags.imm = true) :
    render r = "mov ".toList ++ secondText r ++ ", ".toList ++ immText r ++ "\n".toList := by
  have hsecond := (field_chars (secondText_isField r)).2.ne_nil
  have himm := (immText_isImm r).chars.2.ne_nil
  have hjoin := join_two_fields hsecond himm
  simp [render, printedFields, h, hjoin]

theorem isMoveLine_render (r : Record) : IsMoveLine (render r) := by
  cases h : r.flags.imm with
  | false =>
    exact ⟨firstText r, secondText r, firstText_isField r, (secondText_isField r).elim .inl fun h => .inr (.inl h),
      render_of_no_imm h⟩
  | true => exact ⟨secondText r, immText r, secondText_isField r, .inr (.inr (immText_isImm r)), render_of_imm h⟩

theorem isLine_render (r : Record) : IsLine (render r) := isLine_of_isMoveLine (isMoveLine_render r)

/-- Settles O23: the line of a Move is Render's, whose fields are in the grammar. -/
theorem moveLineInGrammar : Obligations.MoveLineInGrammar := by
  refine ⟨isMoveLine_render, fun setting i r t hr hop hline => ?_⟩
  obtain rfl := Option.some.inj ((printedLine_of_move hr hop setting).symm.trans hline)
  exact isMoveLine_render r

/-- Settles O24: the fields are of the alphabet without the newline, and the last of them ends visibly. -/
theorem lineCharacters : Obligations.LineCharacters := by
  intro r
  obtain ⟨body, hbody, hchars, hend⟩ := (isMoveLine_render r).body
  have hfield (c : Char) (hc : c ∈ body) := (fieldChar_iff c).mp (List.all_eq_true.mp hchars c hc)
  refine ⟨body, hbody, fun hmem => (hfield _ hmem).2 rfl, fun hlast => ?_, fun c hc => ?_⟩
  · rw [EndsVisibly, hlast] at hend
    cases hend
  · rw [hbody] at hc
    rcases List.mem_append.mp hc with hc | hc
    · exact (hfield c hc).1
    · obtain rfl := List.mem_singleton.mp hc
      exact List.mem_append_right _ (by decide)

/-! ## Push and Pop lines, and OUT as bytes (R44, R45, R95) -/

/-- Completing a text makes a line of it, whatever it is. -/
theorem isLine_completeLine (t : Text) : IsLine (completeLine t) := by
  refine ⟨(t.filter lineChar).rdropWhile isBlank, rfl, fun c hc => ?_, fun c hc => ?_⟩
  · have hmem := (List.rdropWhile_prefix isBlank (t.filter lineChar)).subset hc
    simpa [lineChar] using (List.mem_filter.mp hmem).2
  · obtain ⟨hne, rfl⟩ := List.mem_getLast?_eq_getLast hc
    simpa using List.rdropWhile_last_not isBlank _ hne

/-- A line without its newline is completed to itself. -/
theorem completeLine_of_isLine {body : Text} (hchars : ∀ c ∈ body, c.toNat < 128 ∧ c ≠ '\n')
    (hend : ∀ c, body.getLast? = some c → isBlank c = false) : completeLine body = body ++ ['\n'] := by
  have hfilter : body.filter lineChar = body :=
    List.filter_eq_self.mpr fun c hc => by simpa [lineChar] using hchars c hc
  have hdrop : body.rdropWhile isBlank = body :=
    List.rdropWhile_eq_self_iff.mpr fun hne => by simp [hend _ (List.getLast?_eq_getLast_of_ne_nil hne)]
  rw [completeLine, hfilter, hdrop]

theorem isLine_of_pushPopRender {setting : PushPopSetting} {r : Record} {t : Text}
    (h : pushPopRender setting r = some t) : IsLine t := by
  rcases pushPopRender_cases setting r with hnone | hline
  · simp [hnone] at h
  · obtain rfl := Option.some.inj (hline.symm.trans h)
    exact isLine_completeLine _

/-- Settles O26: every line that PUSHPOP_RENDER gives is completed, and completing a line changes nothing. -/
theorem pushPopLineIsComplete : Obligations.PushPopLineIsComplete := by
  refine ⟨fun _ _ _ => isLine_of_pushPopRender, ?_⟩
  rintro t ⟨body, rfl, hchars, hend⟩
  exact ⟨body, completeLine_of_isLine hchars hend⟩

/-- A text is ASCII. -/
def Ascii (t : Text) : Prop := ∀ c ∈ t, c.toNat < 128

theorem ascii_header : Ascii header := by
  have hall : header.all (fun c => decide (c.toNat < 128)) = true := rfl
  simpa [Ascii] using hall

theorem ascii_of_isLine {t : Text} (h : IsLine t) : Ascii t := by
  obtain ⟨body, rfl, hchars, -⟩ := h
  intro c hc
  rcases List.mem_append.mp hc with hc | hc
  · exact (hchars c hc).1
  · obtain rfl := List.mem_singleton.mp hc
    decide

/-- The bytes of an ASCII text read back as the text (R45). -/
theorem map_ofNat_asciiBytes {t : Text} (h : Ascii t) : (asciiBytes t).map (fun b => Char.ofNat b.toNat) = t := by
  have hchar : ∀ c ∈ t, Char.ofNat (BitVec.ofNat 8 c.toNat).toNat = c := fun c hc => by
    have hlt : c.toNat < 2 ^ 8 := Nat.lt_trans (h c hc) (by decide)
    rw [BitVec.toNat_ofNat, Nat.mod_eq_of_lt hlt, Char.ofNat_toNat]
  rw [asciiBytes, List.map_map]
  exact (List.map_congr_left hchar).trans (List.map_id t)

/-- Settles O27: the header and complete lines are ASCII. -/
theorem outAsAsciiBytes : Obligations.OutAsAsciiBytes := by
  intro s hinv
  apply map_ofNat_asciiBytes
  rcases hinv with hnil | ⟨lines, hout, hlines⟩
  · rw [hnil]
    exact nofun
  · rw [hout]
    intro c hc
    rcases List.mem_append.mp hc with hc | hc
    · exact ascii_header c hc
    · obtain ⟨l, hl, hcl⟩ := List.mem_flatten.mp hc
      exact ascii_of_isLine (hlines l hl) c hcl

/-! ## What a step does to OUT -/

/-- A line that an instruction prints is Render's or PUSHPOP_RENDER's. -/
theorem printedLine_cases {setting : PushPopSetting} {i : Instr} {l : Text} (h : printedLine setting i = some l) :
    (∃ r, l = render r) ∨ ∃ r, pushPopRender setting r = some l := by
  cases hr : decodedRecord i with
  | none => simp [printedLine_of_no_record hr] at h
  | some r =>
    by_cases hop : r.op = .move
    · exact .inl ⟨r, Option.some.inj (h.symm.trans (printedLine_of_move hr hop setting))⟩
    · exact .inr ⟨resolve r, (printedLine_of_pushPop hr hop setting).symm.trans h⟩

theorem isLine_of_printedLine {setting : PushPopSetting} {i : Instr} {l : Text} (h : printedLine setting i = some l) :
    IsLine l := by
  rcases printedLine_cases h with ⟨r, rfl⟩ | ⟨r, hr⟩
  · exact isLine_render r
  · exact isLine_of_pushPopRender hr

/-- Under the default of PUSHPOP_RENDER only moves print (R95). -/
theorem isMoveLine_of_printedLine {i : Instr} {l : Text} (h : printedLine .refuse i = some l) : IsMoveLine l := by
  rcases printedLine_cases h with ⟨r, rfl⟩ | ⟨r, hr⟩
  · exact isMoveLine_render r
  · cases hr

/-- A step leaves OUT, or emits the header as its first text, or appends the line of an instruction. -/
theorem step_out_cases {s t : State} (h : step s = .next t) :
    t.out = s.out ∨ (s.out = [] ∧ t.out = header) ∨
      ∃ i l, s.out ≠ [] ∧ printedLine s.pushPop i = some l ∧ t.out = s.out ++ l := by
  rcases step_next_cases h with ⟨-, rfl⟩ | ⟨-, ho, rfl⟩ | ⟨-, -, rfl⟩ | ⟨k, n, -, -, rfl⟩ | ⟨i, rest, ha, -, hexec⟩
  · exact .inl rfl
  · exact .inr (.inl ⟨ho, by simp [ho]⟩)
  · exact .inl rfl
  · exact .inl rfl
  · rcases exec_next_cases hexec with ⟨r, l, -, hl, rfl⟩ | ⟨r, -, -, -, rfl⟩ | ⟨-, rfl⟩
    · exact .inr (.inr ⟨i, l, ha.2, hl, rfl⟩)
    · exact .inl rfl
    · exact .inl rfl

/-- Where every line that an instruction may print is one of `P`, a step keeps OUT nothing, or the header and lines of
`P`. -/
theorem step_keeps_lines {P : Text → Prop} {s t : State} (hP : ∀ i l, printedLine s.pushPop i = some l → P l)
    (hinv : s.out = [] ∨ ∃ lines : List Text, s.out = header ++ lines.flatten ∧ ∀ l ∈ lines, P l)
    (h : step s = .next t) : t.out = [] ∨ ∃ lines : List Text, t.out = header ++ lines.flatten ∧ ∀ l ∈ lines, P l := by
  rcases step_out_cases h with hsame | ⟨-, hheader⟩ | ⟨i, l, hne, hl, happend⟩
  · rw [hsame]
    exact hinv
  · exact .inr ⟨[], by simp [hheader], nofun⟩
  · obtain ⟨lines, hout, hlines⟩ := hinv.resolve_left hne
    refine .inr ⟨lines ++ [l], by simp [happend, hout], ?_⟩
    simpa [or_imp, forall_and] using ⟨hlines, hP i l hl⟩

/-- Settles O51: every line that an instruction prints is complete. -/
theorem stepKeepsWholeLines : Obligations.StepKeepsWholeLines :=
  fun _ _ hinv hstep => step_keeps_lines (fun _ _ => isLine_of_printedLine) hinv hstep

/-- Settles O52: there is no text at the start. -/
theorem wholeLinesAtStart : Obligations.WholeLinesAtStart := ⟨.inl rfl, fun _ _ => .inl rfl⟩

/-- Settles O53: under the default setting every line that an instruction prints is in the grammar, and the setting
stays. -/
theorem stepKeepsGrammar : Obligations.StepKeepsGrammar := by
  rintro s t ⟨hset, hinv⟩ hstep
  refine ⟨(step_keeps_input_setting hstep).2.trans hset, step_keeps_lines (fun i l hl => ?_) hinv hstep⟩
  rw [hset] at hl
  exact isMoveLine_of_printedLine hl

/-- Settles O54: there is no text at the start, and the setting is the default. -/
theorem grammarAtStart : Obligations.GrammarAtStart := fun _ => ⟨rfl, .inl rfl⟩

end Sys2Proof.Machine

/-! Each instruction that prints: its record with both slots, its line and the state after it (spec/41_move.md R99 to
R103, spec/42_push_pop.md R106 to R111), and lines that two encodings share (R97). -/

namespace Sys2Proof.Machine

/-! ## Slots of a record with a ModRM byte (R79, R98) -/

theorem eaFlag_mod (rm : Rm) : eaFlag rm.mod = rmIsMemory rm := by
  cases rm <;> rfl

/-- The register-or-memory side is the operand of the addressing table (R98). -/
theorem dstSlot_withModRm {rm : Rm} (h : rm.wellFormed = true) (base : Record) (reg : RegCode) :
    dstSlot (withModRm base reg rm) = rmOperand base.word rm := by
  rw [dstSlot, withModRm_direct, withModRm_ea, directFlag_mod_code h, eaFlag_mod]
  cases rm <;> rfl

/-- The register side of a record with a ModRM byte and no accumulator address (R79). -/
theorem srcSlot_withModRm {base : Record} (h : base.flags.acc = false) (reg : RegCode) (rm : Rm) :
    srcSlot (withModRm base reg rm) = .register (regW base.word reg) := by
  simp [srcSlot, h]

theorem resolve_withModRm {base : Record} {rm : Rm} (hacc : base.flags.acc = false) (h : rm.wellFormed = true)
    (reg : RegCode) :
    resolve (withModRm base reg rm) =
      { base with
        ea := rmIsMemory rm, direct := rmIsDirect rm, mod := rm.mod, reg := reg, rm := rm.code, disp := rm.disp
        dst := some (rmOperand base.word rm), src := some (.register (regW base.word reg)) } := by
  rw [resolve, dstSlot_withModRm h, srcSlot_withModRm hacc, withModRm, withCodes, eaFlag_mod, directFlag_mod_code h]

/-! ## Lines of the moves -/

theorem render_recordMovRmR {rm : Rm} (h : rm.wellFormed = true) (d w : Bool) (reg : RegCode) :
    render (recordMovRmR d w reg rm) =
      if d then "mov ".toList ++ regText (regW w reg) ++ ", ".toList ++ operandText (rmOperand w rm) ++ "\n".toList
      else "mov ".toList ++ operandText (rmOperand w rm) ++ ", ".toList ++ regText (regW w reg) ++ "\n".toList := by
  have hdst : dstSlot (recordMovRmR d w reg rm) = rmOperand w rm := dstSlot_withModRm h _ reg
  have hsrc : srcSlot (recordMovRmR d w reg rm) = .register (regW w reg) := srcSlot_withModRm rfl reg rm
  have hrev : (recordMovRmR d w reg rm).rev = d := rfl
  rw [render_of_no_imm rfl, firstText, secondText, hdst, hsrc, hrev]
  cases d <;> rfl

/-- The immediate field by the data: the keyword alone for zero (R88). -/
def dataText (v : Sized) : Text :=
  let kw := if v.isWord then "word".toList else "byte".toList
  if v.value = 0 then kw else kw ++ " ".toList ++ dec v.value.toNat

theorem render_recordMovRmImm {rm : Rm} (h : rm.wellFormed = true) (reg : RegCode) (v : Sized) :
    render (recordMovRmImm reg rm v) =
      "mov ".toList ++ operandText (rmOperand v.isWord rm) ++ ", ".toList ++ dataText v ++ "\n".toList := by
  have hsecond : secondText (recordMovRmImm reg rm v) = operandText (rmOperand v.isWord rm) :=
    congrArg operandText (dstSlot_withModRm h _ reg)
  rw [render_of_imm rfl, hsecond]
  rfl

theorem render_recordMovRImm (reg : RegCode) (v : Sized) :
    render (recordMovRImm reg v) =
      "mov ".toList ++ regText (regW v.isWord reg) ++ ", ".toList ++ dataText v ++ "\n".toList := by
  rw [render_of_imm rfl]
  rfl

theorem render_recordMovAccMem (a : Sized) :
    render (recordMovAccMem a) = "mov ".toList ++ (if a.isWord then "ax".toList else "al".toList) ++ ", [".toList ++
      dec a.value.toNat ++ "]\n".toList := by
  rw [render_of_no_imm rfl]
  cases a <;> simp [firstText, secondText, recordMovAccMem, dstSlot, srcSlot, operandText, bracketed] <;> rfl

theorem render_recordMovMemAcc (a : Sized) :
    render (recordMovMemAcc a) = "mov [".toList ++ dec a.value.toNat ++ "], ".toList ++
      (if a.isWord then "ax".toList else "al".toList) ++ "\n".toList := by
  rw [render_of_no_imm rfl]
  cases a <;> simp [firstText, secondText, recordMovMemAcc, dstSlot, srcSlot, operandText, bracketed] <;> rfl

/-! ## The state after a line -/

section
variable {i : Instr} {r : Record} {s : State}

/-- A Move by the cursor and the text after it, which may be written in any way. -/
theorem exec_move {c : Nat} {o : Text} (hr : decodedRecord i = some r) (hop : r.op = .move) (hcur : s.cur + r.len = c)
    (hout : s.out ++ render r = o) : exec i s = .next { s with record := Record.zero, cur := c, out := o } := by
  subst hcur hout
  exact exec_of_move hr hop s

/-- A Push or Pop by its record with both slots, where PUSHPOP_RENDER gives lines. -/
theorem exec_pushPop_line {resolved : Record} (hr : decodedRecord i = some r) (hop : r.op ≠ .move)
    (hset : s.pushPop = .line) (hresolved : resolve r = resolved) :
    (decodedRecord i).map resolve = some resolved ∧
      exec i s = .next
        { s with record := Record.zero, cur := s.cur + resolved.len
                 out := s.out ++ completeLine (Config.pushPopText resolved) } := by
  subst hresolved
  refine ⟨by rw [hr, Option.map_some], ?_⟩
  rw [exec_of_line (by rw [printedLine_of_pushPop hr hop, hset]; rfl), ← decodedRecord_len hr]
  rfl

end

/-! ## The statements -/

/-- Settles O28: the operands are ordered by the direction bit. -/
theorem movRmRPrintsLine : Obligations.MovRmRPrintsLine := by
  intro d w reg rm s h
  refine ⟨congrArg some (resolve_withModRm rfl h reg), exec_move rfl rfl (Nat.add_assoc _ _ _).symm ?_⟩
  rw [render_recordMovRmR h]

/-- Settles O29: the immediate suppresses the register side. -/
theorem movRmImmPrintsLine : Obligations.MovRmImmPrintsLine := by
  intro reg rm v s h kw
  refine ⟨congrArg some (resolve_withModRm rfl h reg), exec_move rfl rfl ?_ ?_⟩
  · simp only [recordMovRmImm, withModRm_len, Nat.add_assoc]
  · simp only [render_recordMovRmImm h, dataText, kw, List.append_assoc]

/-- Settles O30: the immediate suppresses the filler in the first position. -/
theorem movRImmPrintsLine : Obligations.MovRImmPrintsLine := by
  intro reg v s kw
  refine ⟨rfl, exec_move rfl rfl (Nat.add_assoc _ _ _).symm ?_⟩
  simp only [render_recordMovRImm, dataText, kw, List.append_assoc]

/-- Settles O31: code 0 is the accumulator at either width, and the direction bit orders it and the address. -/
theorem accumulatorMovesPrintLine : Obligations.AccumulatorMovesPrintLine := by
  intro a s acc record
  have hload : (decodedRecord (.movAccMem a)).map resolve = some record := by cases a <;> rfl
  have hstore : (decodedRecord (.movMemAcc a)).map resolve = some { record with rev := true } := by cases a <;> rfl
  refine ⟨⟨hload, exec_move rfl rfl (Nat.add_assoc _ _ _).symm ?_⟩, hstore,
    exec_move rfl rfl (Nat.add_assoc _ _ _).symm ?_⟩
  · simp only [render_recordMovAccMem, acc, List.append_assoc]
  · simp only [render_recordMovMemAcc, acc, List.append_assoc]

/-- Settles O33: where PUSHPOP_RENDER gives lines, each shape has one, of its record with both slots. -/
theorem pushPopPrintsLine : Obligations.PushPopPrintsLine := by
  intro reg rm s h hset shape single prints
  exact ⟨exec_pushPop_line rfl nofun hset (resolve_withModRm rfl h reg), exec_pushPop_line rfl nofun hset rfl,
    exec_pushPop_line rfl nofun hset rfl, exec_pushPop_line rfl nofun hset (resolve_withModRm rfl h reg),
    exec_pushPop_line rfl nofun hset rfl, exec_pushPop_line rfl nofun hset rfl⟩

/-! ## Encodings that share a line (R97) -/

/-- A zero displacement is the operand without one, whichever way it is encoded. -/
theorem render_zero_displacement {c : RegCode} (hc : c ≠ 6) {rm : Rm} (hrm : rm = .mem8 c 0 ∨ rm = .mem16 c 0)
    (d w : Bool) (reg : RegCode) : render (recordMovRmR d w reg (.mem c)) = render (recordMovRmR d w reg rm) := by
  have hmem : (Rm.mem c).wellFormed = true := by simpa [Rm.wellFormed] using hc
  have hoperand : rm.wellFormed = true ∧ rmOperand w rm = rmOperand w (.mem c) := by
    rcases hrm with rfl | rfl <;> exact ⟨rfl, rfl⟩
  rw [render_recordMovRmR hmem, render_recordMovRmR hoperand.1, hoperand.2]

theorem encode_ne_of_length {i j : Instr} (h : (encode i).length ≠ (encode j).length) : encode i ≠ encode j :=
  fun he => h (congrArg List.length he)

/-- Settles O25: the lines agree by the slots and the data that are printed; the encodings differ in length, or in the
REG field of the second byte. -/
theorem renderNotInjective : Obligations.RenderNotInjective := by
  refine ⟨fun d w reg c hc => ⟨⟨render_zero_displacement hc (.inl rfl) d w reg, encode_ne_of_length ?_⟩,
    render_zero_displacement hc (.inr rfl) d w reg, encode_ne_of_length ?_⟩, ?_, ?_⟩
  · simp [encode, Rm.extraBytes]
  · simp [encode, Rm.extraBytes, wordBytes]
  · refine fun reg reg' rm v hne => ⟨rfl, fun he => hne ?_⟩
    have hbyte : modRmByte rm.mod reg rm.code = modRmByte rm.mod reg' rm.code := by
      simpa [encode, modRmBytes] using he
    simpa using congrArg regField hbyte
  · refine fun reg c v => ⟨?_, encode_ne_of_length ?_⟩
    · rw [render_recordMovRmImm rfl, render_recordMovRImm]
      rfl
    · simp [encode, Rm.extraBytes]

end Sys2Proof.Machine

/-! Whole passes: a run of the machine is the spec's loop, and it ends (spec/43_translation_driver.md R114, R118, R119),
and the small facts of the interface: reset and the numbers of the outcomes. -/

namespace Sys2Proof.Machine

/-! ## One line for each instruction (R118) -/

/-- Settles O39: the turn is the meaning of the decoded instruction, which appends its line. -/
theorem oneLinePerInstruction : Obligations.OneLinePerInstruction :=
  fun _ _ _ _ hs hd hl => ⟨isLine_of_printedLine hl, (step_of_decode_instr hs hd).trans (exec_of_line hl)⟩

/-! ## The run is the loop (R114) -/

/-- From the top of the loop, turn by turn: each step is a DecodeOne transaction and its line, and so is each round. -/
theorem passResult_runSteps (fuel : Nat) {s : State} (hs : s.AtDecode) :
    passResult (runSteps fuel s) = translateLoop s.input s.pushPop fuel s.cur s.out := by
  induction fuel generalizing s with
  | zero => rw [runSteps, translateLoop, passResult, hs.1]
  | succ fuel ih =>
    have hturn := (turnIsDecodeThenPrint s hs).2
    have hgoOn (c : Nat) (l : Text) :
        State.AtDecode { s with record := Record.zero, cur := c, out := s.out ++ l } :=
      ⟨hs.1, List.append_ne_nil_of_left_ne_nil hs.2 l⟩
    rcases hd : decodeOne s.input s.cur with ⟨r | _ | k, c⟩ <;> simp only [callDecodeOne, hd] at hturn <;>
      rw [runSteps_succ_of_next hturn] <;> simp only [translateLoop, hd]
    · by_cases hop : r.op = .move
      · rw [if_pos hop, if_pos hop, render_resolve]
        exact ih (hgoOn c (render r))
      · rw [if_neg hop, if_neg hop]
        cases hline : pushPopRender s.pushPop (resolve r) with
        | none =>
          rw [runSteps_of_terminal rfl]
          rfl
        | some l => exact ih (hgoOn c l)
    · rw [runSteps_of_terminal rfl]
      rfl
    · rw [runSteps_of_terminal rfl]
      rfl

/-- The first step of a pass emits the header (R115). -/
theorem step_startPass (input : List Byte) (setting : PushPopSetting) :
    step (startPass input setting) = .next (emitHeader (startPass input setting)) :=
  step_of_no_text rfl rfl

/-- Settles O55: the first step emits the header, and the others are the loop. -/
theorem runIsTranslate : Obligations.RunIsTranslate := by
  intro input setting
  rw [runSteps_succ_of_next (step_startPass input setting)]
  exact passResult_runSteps (input.length + 1) ⟨rfl, List.cons_ne_nil _ _⟩

/-! ## The run ends (R119) -/

/-- What every step keeps holds after any number of steps. -/
theorem runSteps_keeps {P : State → Prop} (hstep : ∀ s t, P s → step s = .next t → P t) {s : State} (h : P s)
    (n : Nat) : P (runSteps n s) := by
  induction n generalizing s with
  | zero => exact h
  | succ n ih =>
    obtain ⟨t, ht⟩ := step_next s
    rw [runSteps_succ_of_next ht]
    exact ih (hstep s t h ht)

/-- A turn ends the pass or consumes at least one byte of the source. -/
theorem step_progress {s t : State} (hs : s.AtDecode) (h : step s = .next t) :
    t.status.terminal = true ∨
      (t.AtDecode ∧ t.input = s.input ∧ s.cur < t.cur ∧ t.cur ≤ s.input.length) := by
  rcases step_next_cases h with ⟨hterm, -⟩ | ⟨-, ho, -⟩ | ⟨-, -, rfl⟩ | ⟨k, n, -, -, rfl⟩ | ⟨i, rest, -, hd, hexec⟩
  · simp [hs.1, Status.terminal] at hterm
  · exact absurd ho hs.2
  · exact .inl rfl
  · exact .inl rfl
  · rcases exec_next_cases hexec with ⟨r, l, -, -, rfl⟩ | ⟨r, -, -, -, rfl⟩ | ⟨-, rfl⟩
    · exact .inr ⟨⟨hs.1, List.append_ne_nil_of_left_ne_nil hs.2 l⟩, rfl,
        Nat.lt_add_of_pos_right (encode_length_bounds i).1, cur_add_length_le_of_decode hd⟩
    · exact .inl rfl
    · exact .inl rfl

/-- More steps than bytes are left end the pass. -/
theorem runSteps_terminal {n : Nat} {s : State} (hs : s.AtDecode) (hn : s.input.length - s.cur < n) :
    (runSteps n s).status.terminal = true := by
  induction n generalizing s with
  | zero => omega
  | succ n ih =>
    obtain ⟨t, ht⟩ := step_next s
    rw [runSteps_succ_of_next ht]
    rcases step_progress hs ht with hterm | ⟨ha, hinput, hlt, hle⟩
    · rw [runSteps_of_terminal hterm]
      exact hterm
    · exact ih ha (by rw [hinput]; omega)

/-- The cursor and the text of a pass that has printed, and its cursor at the two ends that meet the end of the source
(R116, R131). -/
theorem Printed.cur_and_out {s : State} {is : List Instr} (h : Printed s is) :
    s.cur ≤ s.input.length ∧ header <+: s.out ∧
      (s.status = .done ∨ s.status = .failed .missingByte → s.cur = s.input.length) := by
  obtain ⟨-, ⟨lines, -, hout⟩, hle, tail, -, htail⟩ := h
  refine ⟨hle, hout ▸ List.prefix_append _ _, ?_⟩
  rintro (hdone | hmissing)
  · rw [TailMatches, hdone] at htail
    exact htail.2
  · rw [TailMatches, hmissing] at htail
    exact htail.1

/-- Settles O56: the run that is Translate ends, and the invariant of a pass says where. -/
theorem translateEnds : Obligations.TranslateEnds := by
  intro input setting p
  have hp : p = passResult (runSteps (input.length + 2) (startPass input setting)) :=
    (runIsTranslate input setting).symm
  have hinput : (runSteps (input.length + 2) (startPass input setting)).input = input := by
    refine runSteps_keeps (P := fun s => s.input = input) (fun s t hs hstep => ?_) rfl _
    exact (step_keeps_input_setting hstep).1.trans hs
  have hinv := runSteps_keeps stepKeepsPassInvariant (passInvariantAtStart.2 input setting) (input.length + 2)
  have hterm : (runSteps (input.length + 2) (startPass input setting)).status.terminal = true := by
    rw [runSteps_succ_of_next (step_startPass input setting)]
    exact runSteps_terminal ⟨rfl, List.cons_ne_nil _ _⟩ (Nat.lt_succ_self _)
  rw [hp]
  generalize runSteps (input.length + 2) (startPass input setting) = s at hinput hinv hterm
  subst hinput
  rcases hinv with ⟨-, -, hrunning⟩ | ⟨is, hprinted⟩
  · simp [hrunning, Status.terminal] at hterm
  · exact ⟨hterm, hprinted.cur_and_out⟩

/-! ## The interface -/

/-- Settles O58: the reset state is written out. -/
theorem resetState : Obligations.ResetState := ⟨rfl, rfl, rfl, rfl⟩

/-- Settles O59, status by status. -/
theorem outcomeNumbers : Obligations.OutcomeNumbers := by
  refine ⟨rfl, rfl, rfl, rfl, fun st => ?_⟩
  cases st with
  | failed k => cases k <;> rfl
  | running | done | refused => rfl

end Sys2Proof.Machine
